-- ==== Sys2Proof/Config.lean ====
section
/-! DEFINITION. The parameters of the block (00_scope.md R5), each in one place.
The model has no free value: the spec leaves no instruction's result without a value. -/

namespace Sys2Proof.Config

/-- R5 `ETH_HDR_LEN`: dst(6), src(6), EtherType(2). -/
@[simp] abbrev ethHdrLen : Nat := 14

/-- R5 `ETH_MAX_PAYLOAD`, the MTU. -/
@[simp] abbrev ethMaxPayload : Nat := 1500

/-- R5 `UDP_HDR_LEN`. -/
@[simp] abbrev udpHdrLen : Nat := 8

/-- R5 `UDP_MAX_PAYLOAD`. -/
@[simp] abbrev udpMaxPayload : Nat := 1472

/-- R5 `IP_HDR_LEN` (UNVERIFIED, log 14: the spec's decision D11). -/
@[simp] abbrev ipHdrLen : Nat := 20

/-- R5 `IP_OFF_PROTO` (UNVERIFIED, log 14: D11). -/
@[simp] abbrev ipOffProto : Nat := 9

/-- R5 `IP_OFF_SRC` (UNVERIFIED, log 14: D11). -/
@[simp] abbrev ipOffSrc : Nat := 12

/-- R5 `IP_OFF_DST` (UNVERIFIED, log 14: D11). -/
@[simp] abbrev ipOffDst : Nat := 16

/-- R5 `IP_MAX_PAYLOAD` (UNVERIFIED, log 14: D12). -/
@[simp] abbrev ipMaxPayload : Nat := 1480

/-- R5 `TCP_SLOTS`. -/
@[simp] abbrev tcpSlots : Nat := 64

/-- R5 `REQ_MAX_LEN`, the longest request the transport delivers (D7). -/
@[simp] abbrev reqMaxLen : Nat := 65535

/-- R5 `ID_W`, the width in bits of a connection id (the spec's decision D16). -/
abbrev idW : Nat := 32

/-- The bytes of a connection id in a message (R85, R91). -/
abbrev idLen : Nat := (idW + 7) / 8

/-- R5 `CTR_W`, the width in bits of every statistics counter (UNVERIFIED, log 15: D21). -/
abbrev ctrW : Nat := 64

/-- The bytes of a counter in a snapshot (R91). -/
abbrev ctrLen : Nat := (ctrW + 7) / 8

/-- R5 `N_COUNTERS` = 4 layers x 4. -/
@[simp] abbrev nCounters : Nat := 16

end Sys2Proof.Config
end

