-- ==== Sys2Proof/Word.lean ====
section
/-! DEFINITION. The data types of the block: bytes and byte strings (00_scope.md R6, R7), the unsigned
integers of its fields (R5), and the two address types (40_address_compare.md R110, R114). -/

namespace Sys2Proof

/-- A byte (R6). -/
abbrev Byte := BitVec 8

/-- A byte string (R7): element 0 is the byte first on the wire and first in a message. -/
abbrev Bytes := List Byte

/-- A 16-bit unsigned field: a port, an EtherType, a UDP length or checksum, a capacity (R5, R85). -/
abbrev Half := BitVec 16

/-- A connection id as it travels in a message (R5 `ID_W`). -/
abbrev ConnId := BitVec Config.idW

/-- A statistics counter (R5 `CTR_W`; R12: addition is modulo 2^`CTR_W`). -/
abbrev Ctr := BitVec Config.ctrW

/-- A MAC address: exactly 6 raw bytes, byte 0 first (R52, R110). It is a byte string, not an integer. -/
structure Mac where
  b0 : Byte
  b1 : Byte
  b2 : Byte
  b3 : Byte
  b4 : Byte
  b5 : Byte
deriving DecidableEq, Repr

/-- An IP address: exactly 4 raw bytes, byte 0 first (R52, R114). -/
structure Ipa where
  b0 : Byte
  b1 : Byte
  b2 : Byte
  b3 : Byte
deriving DecidableEq, Repr

/-- The byte string of a MAC address. -/
def Mac.bytes (a : Mac) : Bytes := [a.b0, a.b1, a.b2, a.b3, a.b4, a.b5]

/-- The byte string of an IP address. -/
def Ipa.bytes (a : Ipa) : Bytes := [a.b0, a.b1, a.b2, a.b3]

end Sys2Proof
end

