-- ==== Sys2Proof/Syntax.lean ====
section
/-! DEFINITION. The 23 operations of the block as syntax (30_encoding.md R90), with the operands of their
formats (R85); the names of the operations and of the fourteen formats. -/

namespace Sys2Proof

/-- The names of the 23 operations (R90), with no operands. -/
inductive Op where
  | mgrInit | mgrProcessEvents | mgrGetStats
  | macEq | macIsBcast | macIsNull
  | ipaEq | ipaIsBcast | ipaIsNull
  | ethEnc | ethDec | ethAccept
  | ipEnc | ipDec | ipDispatch
  | udpEnc | udpDec | udpSend | udpRecv
  | tcpCreate | tcpClose | tcpSend | tcpRecv
deriving DecidableEq, Repr

/-- The names of the fourteen request formats (R85). -/
inductive Format where
  | fN | fM1 | fM2 | fI1 | fI2 | fEH | fB | fIH | fP | fUH | fC | fID | fIDB | fIDC
deriving DecidableEq, Repr

/-- One operation with its operands: one constructor per row of the opcode table, the operands in the order
of the format (R85). Every operand value is legal (R96). -/
inductive Instr where
  | mgrInit
  | mgrProcessEvents
  | mgrGetStats
  | macEq (a b : Mac)
  | macIsBcast (a : Mac)
  | macIsNull (a : Mac)
  | ipaEq (a b : Ipa)
  | ipaIsBcast (a : Ipa)
  | ipaIsNull (a : Ipa)
  | ethEnc (dst src : Mac) (ethertype : Half) (payload : Bytes)
  | ethDec (bytes : Bytes)
  | ethAccept (dst loc : Mac)
  | ipEnc (src dst : Ipa) (proto : Byte) (payload : Bytes)
  | ipDec (bytes : Bytes)
  | ipDispatch (proto : Byte)
  | udpEnc (sport dport length checksum : Half) (payload : Bytes)
  | udpDec (bytes : Bytes)
  | udpSend (bytes : Bytes)
  | udpRecv (bytes : Bytes)
  | tcpCreate (lport rport : Half)
  | tcpClose (id : ConnId)
  | tcpSend (id : ConnId) (data : Bytes)
  | tcpRecv (id : ConnId) (cap : Half)
deriving DecidableEq, Repr

/-- The operation an instruction performs. -/
def Instr.op : Instr → Op
  | .mgrInit => .mgrInit
  | .mgrProcessEvents => .mgrProcessEvents
  | .mgrGetStats => .mgrGetStats
  | .macEq _ _ => .macEq
  | .macIsBcast _ => .macIsBcast
  | .macIsNull _ => .macIsNull
  | .ipaEq _ _ => .ipaEq
  | .ipaIsBcast _ => .ipaIsBcast
  | .ipaIsNull _ => .ipaIsNull
  | .ethEnc _ _ _ _ => .ethEnc
  | .ethDec _ => .ethDec
  | .ethAccept _ _ => .ethAccept
  | .ipEnc _ _ _ _ => .ipEnc
  | .ipDec _ => .ipDec
  | .ipDispatch _ => .ipDispatch
  | .udpEnc _ _ _ _ _ => .udpEnc
  | .udpDec _ => .udpDec
  | .udpSend _ => .udpSend
  | .udpRecv _ => .udpRecv
  | .tcpCreate _ _ => .tcpCreate
  | .tcpClose _ => .tcpClose
  | .tcpSend _ _ => .tcpSend
  | .tcpRecv _ _ => .tcpRecv

/-- The variable part of an instruction: `payload`, `bytes` or `data` (R85); empty for a format without one. -/
def Instr.variablePart : Instr → Bytes
  | .mgrInit => []
  | .mgrProcessEvents => []
  | .mgrGetStats => []
  | .macEq _ _ => []
  | .macIsBcast _ => []
  | .macIsNull _ => []
  | .ipaEq _ _ => []
  | .ipaIsBcast _ => []
  | .ipaIsNull _ => []
  | .ethEnc _ _ _ payload => payload
  | .ethDec bytes => bytes
  | .ethAccept _ _ => []
  | .ipEnc _ _ _ payload => payload
  | .ipDec bytes => bytes
  | .ipDispatch _ => []
  | .udpEnc _ _ _ _ payload => payload
  | .udpDec bytes => bytes
  | .udpSend bytes => bytes
  | .udpRecv bytes => bytes
  | .tcpCreate _ _ => []
  | .tcpClose _ => []
  | .tcpSend _ data => data
  | .tcpRecv _ _ => []

end Sys2Proof
end

