-- ==== Sys2Proof/Machine/Operands.lean ====
section
/-! DEFINITION. Byte strings and operand forms: the memory primitives bound to the message buffers
(00_scope.md R7, R9), big-endian integers (R8, 20_memory.md R50, R51), and the assembly of a field from a
message (30_encoding.md R84). `take(s, n)` and `rep(b, n)` of R7 are `List.take` and `List.replicate`. -/

namespace Sys2Proof

/-- The substring `s[o : o + n]` (R7); the `MemRead(REQ, o, n)` of R9 when it lies inside `s`. -/
def slice (s : Bytes) (o n : Nat) : Bytes := (s.drop o).take n

/-- `MemRead` of R9: defined only when `a + n <= len(s)`. -/
def memRead (s : Bytes) (a n : Nat) : Option Bytes :=
  if a + n ≤ s.length then some (slice s a n) else none

/-- `MemWrite` of R9: bytes `a` to `a + len(v) - 1` of `s` become `v`; every other byte stays. It is used
only where `a + len(v) <= len(s)`. -/
def memWrite (s : Bytes) (a : Nat) (v : Bytes) : Bytes :=
  s.take a ++ v ++ s.drop (a + v.length)

/-- The byte `s[o]` (R7). Every use follows a length check, so the byte read past the end, 0x00, is never seen. -/
def byteAt (s : Bytes) (o : Nat) : Byte := s.getD o 0

/-- R8 `be16(s, o)` = `s[o] * 256 + s[o+1]`. -/
def be16 (s : Bytes) (o : Nat) : Half := byteAt s o ++ byteAt s (o + 1)

/-- R8 `be32(s, o)`: `s[o]` is the most significant of four bytes. -/
def be32 (s : Bytes) (o : Nat) : BitVec 32 := be16 s o ++ be16 s (o + 2)

/-- R8 `be64(s, o)`: `s[o]` is the most significant of eight bytes. -/
def be64 (s : Bytes) (o : Nat) : BitVec 64 := be32 s o ++ be32 s (o + 4)

/-- R8 `enc16(v)`: `v[15:8]` then `v[7:0]`. -/
def enc16 (v : Half) : Bytes := [v.extractLsb' 8 8, v.extractLsb' 0 8]

/-- R8 `enc32(v)`: `v[31:24]` first. -/
def enc32 (v : BitVec 32) : Bytes := enc16 (v.extractLsb' 16 16) ++ enc16 (v.extractLsb' 0 16)

/-- R8 `enc64(v)`: `v[63:56]` first. -/
def enc64 (v : BitVec 64) : Bytes := enc32 (v.extractLsb' 32 32) ++ enc32 (v.extractLsb' 0 32)

/-- The unsigned value of the `n` bytes of `s` from offset `o`, big-endian: R8's `be` over any number of bytes. -/
def beNat (s : Bytes) (o : Nat) : Nat → Nat
  | 0 => 0
  | n + 1 => beNat s o n * 256 + (byteAt s (o + n)).toNat

/-- The `n`-byte big-endian string of `v`, its least significant byte last: R8's `enc` over any number of bytes. -/
def encNat : Nat → Nat → Bytes
  | 0, _ => []
  | n + 1, v => encNat n (v / 256) ++ [BitVec.ofNat 8 v]

/-- R84: a connection id field, an integer of `ID_W` bits (R5); with R5's value it is `be32(s, o)`. -/
def idAt (s : Bytes) (o : Nat) : ConnId := BitVec.ofNat Config.idW (beNat s o Config.idLen)

/-- A connection id in a message; with R5's value of `ID_W` it is `enc32(id)`. -/
def encId (id : ConnId) : Bytes := encNat Config.idLen id.toNat

/-- A counter in a snapshot (R168); with R5's value of `CTR_W` it is `enc64(c)`. -/
def encCtr (c : Ctr) : Bytes := encNat Config.ctrLen c.toNat

/-- R84: a MAC field at offset `o` is the string `req[o:o+6]`. -/
def macAt (s : Bytes) (o : Nat) : Mac :=
  ⟨byteAt s o, byteAt s (o + 1), byteAt s (o + 2), byteAt s (o + 3), byteAt s (o + 4), byteAt s (o + 5)⟩

/-- R84: an IP address field at offset `o` is the string `req[o:o+4]`. -/
def ipaAt (s : Bytes) (o : Nat) : Ipa :=
  ⟨byteAt s o, byteAt s (o + 1), byteAt s (o + 2), byteAt s (o + 3)⟩

end Sys2Proof
end

