-- ==== Sys2Proof/Decode.lean ====
section
/-! DEFINITION. The opcode map and the formats (30_encoding.md R85, R90), the decoder, total on every byte
string and rejecting by name (R83, R84, R93, R97), and after it the encoder. -/

namespace Sys2Proof

/-- The opcode of each operation (R90). -/
def Op.opcode : Op → Byte
  | .mgrInit => 0x01
  | .mgrProcessEvents => 0x02
  | .mgrGetStats => 0x03
  | .macEq => 0x10
  | .macIsBcast => 0x11
  | .macIsNull => 0x12
  | .ipaEq => 0x14
  | .ipaIsBcast => 0x15
  | .ipaIsNull => 0x16
  | .ethEnc => 0x20
  | .ethDec => 0x21
  | .ethAccept => 0x22
  | .ipEnc => 0x30
  | .ipDec => 0x31
  | .ipDispatch => 0x32
  | .udpEnc => 0x40
  | .udpDec => 0x41
  | .udpSend => 0x42
  | .udpRecv => 0x43
  | .tcpCreate => 0x50
  | .tcpClose => 0x51
  | .tcpSend => 0x52
  | .tcpRecv => 0x53

/-- The format of each operation (R90). -/
def Op.format : Op → Format
  | .mgrInit => .fN
  | .mgrProcessEvents => .fN
  | .mgrGetStats => .fN
  | .macEq => .fM2
  | .macIsBcast => .fM1
  | .macIsNull => .fM1
  | .ipaEq => .fI2
  | .ipaIsBcast => .fI1
  | .ipaIsNull => .fI1
  | .ethEnc => .fEH
  | .ethDec => .fB
  | .ethAccept => .fM2
  | .ipEnc => .fIH
  | .ipDec => .fB
  | .ipDispatch => .fP
  | .udpEnc => .fUH
  | .udpDec => .fB
  | .udpSend => .fB
  | .udpRecv => .fB
  | .tcpCreate => .fC
  | .tcpClose => .fID
  | .tcpSend => .fIDB
  | .tcpRecv => .fIDC

/-- The operations in the order of R90. -/
def Op.all : List Op :=
  [.mgrInit, .mgrProcessEvents, .mgrGetStats, .macEq, .macIsBcast, .macIsNull, .ipaEq, .ipaIsBcast, .ipaIsNull,
   .ethEnc, .ethDec, .ethAccept, .ipEnc, .ipDec, .ipDispatch, .udpEnc, .udpDec, .udpSend, .udpRecv,
   .tcpCreate, .tcpClose, .tcpSend, .tcpRecv]

/-- `F`, the length in bytes of a format's fixed part, opcode included (R85: with R5's `ID_W` the three formats with
an id have 5, 5 and 7). -/
def Format.fixedLen : Format → Nat
  | .fN => 1
  | .fM1 => 7
  | .fM2 => 13
  | .fI1 => 5
  | .fI2 => 9
  | .fEH => 15
  | .fB => 1
  | .fIH => 10
  | .fP => 2
  | .fUH => 9
  | .fC => 5
  | .fID => 1 + Config.idLen
  | .fIDB => 1 + Config.idLen
  | .fIDC => 1 + Config.idLen + 2

/-- Whether a format has a variable part (R85). -/
def Format.hasVariable : Format → Bool
  | .fEH => true
  | .fB => true
  | .fIH => true
  | .fUH => true
  | .fIDB => true
  | .fN => false
  | .fM1 => false
  | .fM2 => false
  | .fI1 => false
  | .fI2 => false
  | .fP => false
  | .fC => false
  | .fID => false
  | .fIDC => false

/-- R83: the length check of a format on a message of `n` bytes. -/
def Format.lengthOk (f : Format) (n : Nat) : Bool :=
  if f.hasVariable then decide (f.fixedLen ≤ n) else decide (n = f.fixedLen)

/-- R90: the operation an opcode byte selects; none for the 233 reserved values of R93. -/
def lookupOpcode (b : Byte) : Option Op := Op.all.find? (fun o => o.opcode == b)

/-- Why a byte string is no request of any operation. -/
inductive DecodeError where
  /-- Length 0: "not a request: the transport never delivers one" (R80). -/
  | emptyRequest
  /-- Longer than `REQ_MAX_LEN` (R80). -/
  | overlongRequest
  /-- The first byte is a reserved opcode (R93). -/
  | reservedOpcode (opcode : Byte)
  /-- The length check of R83 fails for this operation. -/
  | badLength (op : Op)
deriving DecidableEq, Repr

/-- What the decoder answers. -/
inductive Decoded where
  | instr (i : Instr)
  | rejected (why : DecodeError)
deriving DecidableEq, Repr

/-- R84, R85: the fields of a request whose length check passed, assembled by offset. -/
def assemble (o : Op) (req : Bytes) : Instr :=
  match o with
  | .mgrInit => .mgrInit
  | .mgrProcessEvents => .mgrProcessEvents
  | .mgrGetStats => .mgrGetStats
  | .macEq => .macEq (macAt req 1) (macAt req 7)
  | .macIsBcast => .macIsBcast (macAt req 1)
  | .macIsNull => .macIsNull (macAt req 1)
  | .ipaEq => .ipaEq (ipaAt req 1) (ipaAt req 5)
  | .ipaIsBcast => .ipaIsBcast (ipaAt req 1)
  | .ipaIsNull => .ipaIsNull (ipaAt req 1)
  | .ethEnc => .ethEnc (macAt req 1) (macAt req 7) (be16 req 13) (req.drop 15)
  | .ethDec => .ethDec (req.drop 1)
  | .ethAccept => .ethAccept (macAt req 1) (macAt req 7)
  | .ipEnc => .ipEnc (ipaAt req 1) (ipaAt req 5) (byteAt req 9) (req.drop 10)
  | .ipDec => .ipDec (req.drop 1)
  | .ipDispatch => .ipDispatch (byteAt req 1)
  | .udpEnc => .udpEnc (be16 req 1) (be16 req 3) (be16 req 5) (be16 req 7) (req.drop 9)
  | .udpDec => .udpDec (req.drop 1)
  | .udpSend => .udpSend (req.drop 1)
  | .udpRecv => .udpRecv (req.drop 1)
  | .tcpCreate => .tcpCreate (be16 req 1) (be16 req 3)
  | .tcpClose => .tcpClose (idAt req 1)
  | .tcpSend => .tcpSend (idAt req 1) (req.drop (1 + Config.idLen))
  | .tcpRecv => .tcpRecv (idAt req 1) (be16 req (1 + Config.idLen))

/-- R97: the decoder reads `req[0]`, looks it up (R90, R93), checks the length (R83) and assembles the
fields (R84). A string outside the transport's lengths 1 to 65535 is rejected first (R80). -/
def decode (req : Bytes) : Decoded :=
  match req with
  | [] => .rejected .emptyRequest
  | b :: _ =>
    if Config.reqMaxLen < req.length then .rejected .overlongRequest
    else
      match lookupOpcode b with
      | none => .rejected (.reservedOpcode b)
      | some o => if o.format.lengthOk req.length then .instr (assemble o req) else .rejected (.badLength o)

/-- The operand bytes of an instruction after the opcode, in the layout of its format (R85). -/
def Instr.operandBytes : Instr → Bytes
  | .mgrInit => []
  | .mgrProcessEvents => []
  | .mgrGetStats => []
  | .macEq a b => a.bytes ++ b.bytes
  | .macIsBcast a => a.bytes
  | .macIsNull a => a.bytes
  | .ipaEq a b => a.bytes ++ b.bytes
  | .ipaIsBcast a => a.bytes
  | .ipaIsNull a => a.bytes
  | .ethEnc dst src ethertype payload => dst.bytes ++ src.bytes ++ enc16 ethertype ++ payload
  | .ethDec bytes => bytes
  | .ethAccept dst loc => dst.bytes ++ loc.bytes
  | .ipEnc src dst proto payload => src.bytes ++ dst.bytes ++ [proto] ++ payload
  | .ipDec bytes => bytes
  | .ipDispatch proto => [proto]
  | .udpEnc sport dport length checksum payload => enc16 sport ++ enc16 dport ++ enc16 length ++ enc16 checksum ++ payload
  | .udpDec bytes => bytes
  | .udpSend bytes => bytes
  | .udpRecv bytes => bytes
  | .tcpCreate lport rport => enc16 lport ++ enc16 rport
  | .tcpClose id => encId id
  | .tcpSend id data => encId id ++ data
  | .tcpRecv id cap => encId id ++ enc16 cap

/-- The request message of an instruction: its opcode (R90), then its operands (R85). -/
def encode (i : Instr) : Bytes := i.op.opcode :: i.operandBytes

/-- The message that a row of the opcode table stands for, its bits `w` numbered from the least significant bit
of byte 0: the table's `nbits` bits, laid out byte by byte, then bytes 0x00 up to the operation's fixed
length `F` (R83: the length of a message is part of it). -/
def tableMessage (nbits w : Nat) : Bytes :=
  let given := (nbits + 7) / 8
  let first : Byte := BitVec.ofNat 8 (w % 2 ^ nbits)
  let full := match lookupOpcode first with
    | some o => max given o.format.fixedLen
    | none => given
  (List.range full).map (fun k => BitVec.ofNat 8 ((w % 2 ^ nbits) / 256 ^ k))

/-- The instruction the decoder reads from a word numbered as the opcode table numbers it. -/
def decodeTableWord (nbits w : Nat) : Option Instr :=
  match decode (tableMessage nbits w) with
  | .instr i => some i
  | .rejected _ => none

end Sys2Proof
end

