-- ==== Sys2Proof/Machine/State.lean ====
section
/-! DEFINITION. The state of the block (10_state.md), its reset (70_reset_and_hazards.md R200), and the
reasons a step can stop. Plain data: no field holds a function. -/

namespace Sys2Proof.Machine

/-- What an Occupied slot holds: the two ports (R26) and the receive queue, oldest byte first (R27). -/
structure Conn where
  lport : Half
  rport : Half
  rxq : Bytes
deriving DecidableEq, Repr

/-- A slot is Empty (`none`) or Occupied, and "an Empty entry holds nothing" (R25, R26). -/
abbrev Slot := Option Conn

/-- The four counters of one layer (R28). -/
structure LayerCounters where
  unitsSent : Ctr
  unitsRecv : Ctr
  bytesSent : Ctr
  bytesRecv : Ctr
deriving DecidableEq, Repr

/-- The sixteen statistics counters `ctr[L][K]` (R28). -/
structure Counters where
  eth : LayerCounters
  ip : LayerCounters
  tcp : LayerCounters
  udp : LayerCounters
deriving DecidableEq, Repr

/-- What the host does to the block between two requests: it presents a request (R80), or it applies a
reset (R201; DESIGN CHOICE, log 4). -/
inductive HostInput where
  | request (req : Bytes)
  | reset
deriving DecidableEq, Repr

/-- The state of the block, and the host's inputs to it. -/
structure State where
  /-- R22: the ready flag. -/
  ready : Bool
  /-- R23: `LOCAL_MAC`, fixed at construction, written by no operation. -/
  localMac : Mac
  /-- R23: `LOCAL_IP`, fixed at construction, written by no operation. -/
  localIp : Ipa
  /-- R25: the TCP connection table, indexed by connection id. -/
  slots : Vector Slot Config.tcpSlots
  /-- R28, R29: the statistics counters. -/
  ctr : Counters
  /-- What the host will present, oldest first; the head, when a request, is `REQ` of R31 (the model's own
  field; DESIGN CHOICE, log 1). -/
  inputs : List HostInput
  /-- `RSP` of R31: the response handed back last, none before the first (DESIGN CHOICE, log 6: kept after its
  request so that it can be read; no operation reads it). -/
  rsp : Option Bytes
deriving DecidableEq, Repr

/-- The three ways an operation ends (00_scope.md R10, 30_encoding.md R82). -/
inductive Response where
  | ok (fields : Bytes)
  | fail
  | badRequest
deriving DecidableEq, Repr

/-- Why the machine stops. No operation of the block raises one: every failure of the spec is a response
(60_exceptions.md R189). Both stand for a message that the spec says is never delivered. -/
inductive Fault where
  /-- Raised by `step` on a message of length 0, which "is not a request: the transport never delivers one"
  (R80). Safe: no claim about such a message can be proved (log 3). -/
  | emptyRequest
  /-- Raised by `step` on a message of more than `REQ_MAX_LEN` bytes, which is no request (R80). Safe (log 3). -/
  | overlongRequest
deriving DecidableEq, Repr

/-- Why an instruction has no meaning. -/
inductive Refusal where
  /-- Raised by an arm of `exec` whose instruction has no meaning yet; no arm does. Safe. -/
  | notModelled (mnemonic : String)
deriving DecidableEq, Repr

/-- The outcome of an operation or a step. -/
abbrev Result := Host.Outcome State Fault Refusal

/-- The four counters of a layer at zero. -/
def LayerCounters.zero : LayerCounters := ⟨0, 0, 0, 0⟩

/-- All sixteen counters at zero. -/
def Counters.zero : Counters := ⟨.zero, .zero, .zero, .zero⟩

/-- R200: the state of a block constructed with these two addresses. They are not checked (R202). -/
def State.construct (mac : Mac) (ip : Ipa) : State where
  ready := false
  localMac := mac
  localIp := ip
  slots := Vector.replicate Config.tcpSlots none
  ctr := .zero
  inputs := []
  rsp := none

/-- The machine right after reset: R200 with the spec's example construction arguments, local MAC
02:00:00:00:00:01 and local IP 192.168.1.100 (R23, R202; DESIGN CHOICE, log 5: the spec leaves the values
open, so a statement speaks of `State.construct` for every pair). -/
def State.reset : State := .construct ⟨0x02, 0, 0, 0, 0, 0x01⟩ ⟨0xC0, 0xA8, 0x01, 0x64⟩

end Sys2Proof.Machine
end

