-- ==== Sys2Proof/Machine/Ops.lean ====
section
/-! DEFINITION. The named operations every meaning is written over: handing back a response (the block's
only form of "exception", 60_exceptions.md R189), the connection table, the counters, and what the step does
around an operation. -/

namespace Sys2Proof.Machine

/-- The response message (R81, R82): the status byte, and the result fields when the status is OK. -/
def Response.bytes : Response → Bytes
  | .ok fields => 0x00 :: fields
  | .fail => [0x01]
  | .badRequest => [0xFF]

/-- The state with this response in `RSP`. -/
def State.respond (s : State) (r : Response) : State := { s with rsp := some r.bytes }

/-- An operation ends: it hands back its response and the next request may follow. Ending in a failure is
this and nothing more: it "saves nothing, changes no mode, masks nothing, transfers control nowhere"
(R189), and there is no return from it (R190). -/
def answer (r : Response) (s : State) : Result := .next (s.respond r)

/-- The ready flag set (R22). -/
def State.setReady (s : State) : State := { s with ready := true }

/-- The state with these inputs still to come. -/
def State.withInputs (s : State) (rest : List HostInput) : State := { s with inputs := rest }

/-! ### The connection table -/

/-- One slot of the table replaced (R25). -/
def State.setSlot (s : State) (k : Fin Config.tcpSlots) (v : Slot) : State :=
  { s with slots := s.slots.set k v }

/-- R150: the ascending scan for the first Empty slot (UNVERIFIED, log 11: the spec's decision D15). -/
def State.firstFree (s : State) : Option (Fin Config.tcpSlots) :=
  (List.finRange Config.tcpSlots).find? (fun k => (s.slots[k]).isNone)

/-- R153 and the occupancy check: the slot and the content of the live connection an id names. The guard
`id < 64`, on the whole 32-bit number, comes before the slot is indexed. -/
def State.liveConn (s : State) (id : ConnId) : Option (Fin Config.tcpSlots × Conn) :=
  if h : id.toNat < Config.tcpSlots then (s.slots[id.toNat]).map (fun c => (⟨id.toNat, h⟩, c))
  else none

/-- R30, R167: the number of Occupied slots. -/
def State.active (s : State) : Nat := s.slots.toList.countP Option.isSome

/-! ### The counters -/

/-- R12: `c <- c + k`, modulo 2^`CTR_W`. -/
def addCount (c : Ctr) (k : Nat) : Ctr := c + BitVec.ofNat Config.ctrW k

/-- One unit of `n` bytes sent (R29). -/
def LayerCounters.sent (c : LayerCounters) (n : Nat) : LayerCounters :=
  { c with unitsSent := addCount c.unitsSent 1, bytesSent := addCount c.bytesSent n }

/-- One unit of `n` bytes received (R29). -/
def LayerCounters.received (c : LayerCounters) (n : Nat) : LayerCounters :=
  { c with unitsRecv := addCount c.unitsRecv 1, bytesRecv := addCount c.bytesRecv n }

/-- R154: a TCP segment sent. -/
def State.countTcpSent (s : State) (n : Nat) : State :=
  { s with ctr := { s.ctr with tcp := s.ctr.tcp.sent n } }

/-- R156: a TCP segment received. -/
def State.countTcpReceived (s : State) (n : Nat) : State :=
  { s with ctr := { s.ctr with tcp := s.ctr.tcp.received n } }

/-- R144: a UDP datagram sent. -/
def State.countUdpSent (s : State) (n : Nat) : State :=
  { s with ctr := { s.ctr with udp := s.ctr.udp.sent n } }

/-- R145: a UDP datagram received. -/
def State.countUdpReceived (s : State) (n : Nat) : State :=
  { s with ctr := { s.ctr with udp := s.ctr.udp.received n } }

/-- The four counters of a layer in the order of R28. -/
def LayerCounters.inOrder (c : LayerCounters) : List Ctr := [c.unitsSent, c.unitsRecv, c.bytesSent, c.bytesRecv]

/-- The sixteen counters in the order of R28: counter `k` is the element at index `k`. -/
def Counters.inOrder (c : Counters) : List Ctr :=
  c.eth.inOrder ++ c.ip.inOrder ++ c.tcp.inOrder ++ c.udp.inOrder

/-! ### Around an operation -/

/-- R200, R201: a reset between two requests. The construction arguments stay, everything else of the block
is as constructed; what the host will present next is not the block's (DESIGN CHOICE, log 4). -/
def State.applyReset (s : State) : State :=
  { State.construct s.localMac s.localIp with inputs := s.inputs }

/-- Nothing is presented: nothing happens (DEDUCED, log 2, from R2, R33 and R187: between two requests nothing
is pending and the block has no event of its own). -/
def idle (s : State) : Result := .next s

/-- What the block does with a message the decoder rejects: BAD_REQUEST with no state changed for a reserved
opcode or a wrong length (R83, R93); a message the transport never delivers (R80) stops the model. -/
def answerRejected (why : DecodeError) (s : State) : Result :=
  match why with
  | .emptyRequest => .fault .emptyRequest
  | .overlongRequest => .fault .overlongRequest
  | .reservedOpcode _ => answer .badRequest s
  | .badLength _ => answer .badRequest s

end Sys2Proof.Machine
end

