-- ==== Sys2Proof/Machine/Flags.lean ====
section
/-! DEFINITION. The block's only flag, `ready` (10_state.md R22), and the truth byte of a predicate
(30_encoding.md R82). There are no condition codes, no carry and no overflow. -/

namespace Sys2Proof.Machine

/-- R170, the ready gate of a forwarding call: while `ready` = 0 it answers `closed` and changes nothing
(UNVERIFIED, log 9: the spec's decision D22). -/
def whenReady (closed : Response) (run : State → Result) (s : State) : Result :=
  if s.ready then run s else answer closed s

/-- R82: 0x01 for true, 0x00 for false. -/
def truthByte (b : Bool) : Byte := if b then 0x01 else 0x00

/-- R82: a predicate answers OK and one byte; "a false predicate is not a failure". -/
def answerTruth (b : Bool) (s : State) : Result := answer (.ok [truthByte b]) s

end Sys2Proof.Machine
end

