-- ==== Sys2Proof/Machine/Address.lean ====
section
/-! DEFINITION. The address comparator (40_address_compare.md): six pure predicates. -/

namespace Sys2Proof.Machine

/-- R110 `mac_eq`: "equality is byte-wise". -/
def macEq (a b : Mac) : Bool := (a.bytes.zip b.bytes).all (fun p => p.1 == p.2)

/-- R110 `mac_is_bcast`: every byte is 0xFF. -/
def macIsBcast (a : Mac) : Bool := a.bytes.all (· == 0xFF)

/-- R110 `mac_is_null`: every byte is 0x00. -/
def macIsNull (a : Mac) : Bool := a.bytes.all (· == 0x00)

/-- R114 `ipa_eq`. -/
def ipaEq (a b : Ipa) : Bool := (a.bytes.zip b.bytes).all (fun p => p.1 == p.2)

/-- R114 `ipa_is_bcast` (UNVERIFIED, log 21: the spec's decision D13). -/
def ipaIsBcast (a : Ipa) : Bool := a.bytes.all (· == 0xFF)

/-- R114 `ipa_is_null` (UNVERIFIED, log 21: the spec's decision D13). -/
def ipaIsNull (a : Ipa) : Bool := a.bytes.all (· == 0x00)

/-- MAC.EQ, R111. -/
def execMacEq (a b : Mac) (s : State) : Result := answerTruth (macEq a b) s

/-- MAC.ISBCAST, R112. -/
def execMacIsBcast (a : Mac) (s : State) : Result := answerTruth (macIsBcast a) s

/-- MAC.ISNULL, R113. -/
def execMacIsNull (a : Mac) (s : State) : Result := answerTruth (macIsNull a) s

/-- IPA.EQ, R115. -/
def execIpaEq (a b : Ipa) (s : State) : Result := answerTruth (ipaEq a b) s

/-- IPA.ISBCAST, R116. -/
def execIpaIsBcast (a : Ipa) (s : State) : Result := answerTruth (ipaIsBcast a) s

/-- IPA.ISNULL, R117. -/
def execIpaIsNull (a : Ipa) (s : State) : Result := answerTruth (ipaIsNull a) s

end Sys2Proof.Machine
end

