-- ==== Sys2Proof/Machine/Ethernet.lean ====
section
/-! DEFINITION. The Ethernet frame codec (41_ethernet.md; wire format 30_encoding.md R70, R71, R75). -/

namespace Sys2Proof.Machine

/-- The four variants of the header's type field (R75). -/
inductive EtherType where
  | ipv4 | ipv6 | arp | unknown
deriving DecidableEq, Repr

/-- The 16-bit code of a variant (R75). -/
def EtherType.code : EtherType → Half
  | .ipv4 => 0x0800
  | .ipv6 => 0x86DD
  | .arp => 0x0806
  | .unknown => 0x0000

/-- R75: the variant a 16-bit wire value decodes to; "any other value decodes to an 'Unknown' variant". -/
def EtherType.ofWire (w : Half) : EtherType :=
  if w = 0x0800 then .ipv4
  else if w = 0x86DD then .ipv6
  else if w = 0x0806 then .arp
  else .unknown

/-- R75 `etnorm`: what a decode followed by an encode does to the field. -/
def etnorm (w : Half) : Half := (EtherType.ofWire w).code

/-- An Ethernet frame: header and payload; `payload_len` is the payload's length (41_ethernet.md section 1). -/
structure EthFrame where
  dst : Mac
  src : Mac
  et : EtherType
  payload : Bytes
deriving DecidableEq, Repr

/-- R120 `eth_encode`: the payload is cut to its first 1500 bytes, silently. -/
def ethEncode (f : EthFrame) : Bytes :=
  f.dst.bytes ++ f.src.bytes ++ enc16 f.et.code ++ f.payload.take Config.ethMaxPayload

/-- R122 `eth_decode`. -/
def ethDecode (b : Bytes) : Option EthFrame :=
  if b.length < Config.ethHdrLen then none
  else if b.length - Config.ethHdrLen > Config.ethMaxPayload then none
  else some ⟨macAt b 0, macAt b 6, .ofWire (be16 b 12), b.drop Config.ethHdrLen⟩

/-- R124 `eth_accept`, on the frame's destination: the only part it reads. -/
def ethAccepts (dst loc : Mac) : Bool := macIsBcast dst || macEq dst loc

/-- ETH.ENC, R121: the operand is normalised to one of the four codes (UNVERIFIED, log 16: D10). -/
def execEthEnc (dst src : Mac) (ethertype : Half) (payload : Bytes) (s : State) : Result :=
  answer (.ok (ethEncode ⟨dst, src, .ofWire ethertype, payload⟩)) s

/-- ETH.DEC, R123. -/
def execEthDec (bytes : Bytes) (s : State) : Result :=
  match ethDecode bytes with
  | none => answer .fail s
  | some f =>
    answer (.ok (f.dst.bytes ++ f.src.bytes ++ enc16 f.et.code ++ enc16 (BitVec.ofNat 16 f.payload.length) ++ f.payload)) s

/-- ETH.ACCEPT, R125. -/
def execEthAccept (dst loc : Mac) (s : State) : Result := answerTruth (ethAccepts dst loc) s

/-- R99, the pseudo-instruction ETH.ACCEPT.LOCAL: an ETH.ACCEPT whose local address is the construction
constant `LOCAL_MAC`. It has no opcode of its own. -/
def ethAcceptLocal (s : State) (dst : Mac) : Instr := .ethAccept dst s.localMac

end Sys2Proof.Machine
end

