-- ==== Sys2Proof/Machine/Ip.lean ====
section
/-! DEFINITION. The IP header codec and the transport dispatch (42_ip.md; wire format 30_encoding.md R74, R76).
The layout is the spec's decision D11 and the cap D12 (UNVERIFIED, log 14): both come from Config alone. -/

namespace Sys2Proof.Machine

/-- An IP packet: header and payload (42_ip.md section 1). -/
structure IpPacket where
  src : Ipa
  dst : Ipa
  proto : Byte
  payload : Bytes
deriving DecidableEq, Repr

/-- The IP header of R74: filler bytes 0x00, with the three fields written at their offsets. -/
def ipHeader (src dst : Ipa) (proto : Byte) : Bytes :=
  memWrite (memWrite (memWrite (List.replicate Config.ipHdrLen 0x00) Config.ipOffProto [proto])
    Config.ipOffSrc src.bytes) Config.ipOffDst dst.bytes

/-- R130 `ip_encode`: the payload is cut to its first 1480 bytes, silently. -/
def ipEncode (p : IpPacket) : Bytes := ipHeader p.src p.dst p.proto ++ p.payload.take Config.ipMaxPayload

/-- R132 `ip_decode`: the filler is not read, the protocol number is not checked. -/
def ipDecode (b : Bytes) : Option IpPacket :=
  if b.length < Config.ipHdrLen then none
  else if b.length - Config.ipHdrLen > Config.ipMaxPayload then none
  else some ⟨ipaAt b Config.ipOffSrc, ipaAt b Config.ipOffDst, byteAt b Config.ipOffProto, b.drop Config.ipHdrLen⟩

/-- The transport decoders the dispatcher can select (R134). -/
inductive Transport where
  | icmp | tcp | udp
deriving DecidableEq, Repr

/-- The protocol number of each (R76). -/
def Transport.number : Transport → Byte
  | .icmp => 1
  | .tcp => 6
  | .udp => 17

/-- R134 `ip_dispatch`: 1, 6 and 17 are recognised, every other value of the 256 is rejected. -/
def ipDispatch (proto : Byte) : Option Transport :=
  if proto = 1 then some .icmp
  else if proto = 6 then some .tcp
  else if proto = 17 then some .udp
  else none

/-- IP.ENC, R131. -/
def execIpEnc (src dst : Ipa) (proto : Byte) (payload : Bytes) (s : State) : Result :=
  answer (.ok (ipEncode ⟨src, dst, proto, payload⟩)) s

/-- IP.DEC, R133. -/
def execIpDec (bytes : Bytes) (s : State) : Result :=
  match ipDecode bytes with
  | none => answer .fail s
  | some p =>
    answer (.ok (p.src.bytes ++ p.dst.bytes ++ [p.proto] ++ enc16 (BitVec.ofNat 16 p.payload.length) ++ p.payload)) s

/-- IP.DISPATCH, R135: the OK response names the selected decoder by its number. -/
def execIpDispatch (proto : Byte) (s : State) : Result :=
  match ipDispatch proto with
  | some t => answer (.ok [t.number]) s
  | none => answer .fail s

end Sys2Proof.Machine
end

