-- ==== Sys2Proof/Machine/Manager.lean ====
section
/-! DEFINITION. The manager's own operations (45_manager.md). -/

namespace Sys2Proof.Machine

/-- The fields of a snapshot response (R167, R168): the sixteen counters in the order of R28, 8 bytes each,
then the number of Occupied slots in 4 bytes. -/
def snapshot (s : State) : Bytes :=
  s.ctr.inOrder.flatMap encCtr ++ enc32 (BitVec.ofNat 32 s.active)

/-- MGR.INIT, R165: it sets `ready` and touches nothing else. -/
def execMgrInit (s : State) : Result := answer (.ok []) s.setReady

/-- MGR.PROCESS_EVENTS, R166: "a no-op hook", ready or not. -/
def execMgrProcessEvents (s : State) : Result := answer (.ok []) s

/-- MGR.GET_STATS, R168: while `ready` = 0 the zero statistics, 132 bytes 0x00. -/
def execMgrGetStats (s : State) : Result :=
  whenReady (.ok (List.replicate (Config.nCounters * Config.ctrLen + 4) 0x00)) (fun s => answer (.ok (snapshot s)) s) s

end Sys2Proof.Machine
end

