-- ==== Sys2Proof/Machine/Tcp.lean ====
section
/-! DEFINITION. The TCP connection table (44_tcp_table.md): create, close, send, receive, each a forwarding
call behind the ready gate (45_manager.md R170). -/

namespace Sys2Proof.Machine

/-- R156 on a live connection: `min(len(rxq), cap)` bytes leave the front of the queue; the counters move only
when a byte does. -/
def receiveFrom (k : Fin Config.tcpSlots) (c : Conn) (cap : Half) (s : State) : Result :=
  let n := min c.rxq.length cap.toNat
  let s := s.setSlot k (some { c with rxq := c.rxq.drop n })
  let s := if 0 < n then s.countTcpReceived n else s
  answer (.ok (enc16 (BitVec.ofNat 16 n) ++ c.rxq.take n)) s

/-- TCP.CREATE, R150: the ports are not checked (log 23). -/
def execTcpCreate (lport rport : Half) (s : State) : Result :=
  whenReady .fail (fun s =>
    match s.firstFree with
    | some k => answer (.ok (encId (BitVec.ofNat Config.idW k.val))) (s.setSlot k (some ⟨lport, rport, []⟩))
    | none => answer .fail s) s

/-- TCP.CLOSE, R152: the slot's ports and queue are discarded. -/
def execTcpClose (id : ConnId) (s : State) : Result :=
  whenReady .fail (fun s =>
    match s.liveConn id with
    | some (k, _) => answer (.ok []) (s.setSlot k none)
    | none => answer .fail s) s

/-- TCP.SEND, R154: two counter additions and nothing else (UNVERIFIED, log 17: D17). -/
def execTcpSend (id : ConnId) (data : Bytes) (s : State) : Result :=
  whenReady .fail (fun s =>
    match s.liveConn id with
    | some _ => answer (.ok []) (s.countTcpSent data.length)
    | none => answer .fail s) s

/-- TCP.RECV, R156: the sentinel is status OK with count 0. Nothing appends to `rxq` (R158; UNVERIFIED, log 12). -/
def execTcpRecv (id : ConnId) (cap : Half) (s : State) : Result :=
  whenReady (.ok [0x00, 0x00]) (fun s =>
    match s.liveConn id with
    | some (k, c) => receiveFrom k c cap s
    | none => answer (.ok [0x00, 0x00]) s) s

end Sys2Proof.Machine
end

