-- ==== Sys2Proof/Machine/Udp.lean ====
section
/-! DEFINITION. The UDP datagram codec and the manager's UDP accounting (43_udp.md; wire format 30_encoding.md
R72, R73). The checksum and length fields are carried, never computed or checked (R147, R148). -/

namespace Sys2Proof.Machine

/-- A UDP datagram: header and payload (43_udp.md section 1). -/
structure UdpDatagram where
  sport : Half
  dport : Half
  length : Half
  checksum : Half
  payload : Bytes
deriving DecidableEq, Repr

/-- R140 `udp_encode`: the payload is cut to its first 1472 bytes, silently; the `length` field stays as given. -/
def udpEncode (d : UdpDatagram) : Bytes :=
  enc16 d.sport ++ enc16 d.dport ++ enc16 d.length ++ enc16 d.checksum ++ d.payload.take Config.udpMaxPayload

/-- R142 `udp_decode`. -/
def udpDecode (b : Bytes) : Option UdpDatagram :=
  if b.length < Config.udpHdrLen then none
  else if b.length - Config.udpHdrLen > Config.udpMaxPayload then none
  else some ⟨be16 b 0, be16 b 2, be16 b 4, be16 b 6, b.drop Config.udpHdrLen⟩

/-- UDP.ENC, R141. -/
def execUdpEnc (sport dport length checksum : Half) (payload : Bytes) (s : State) : Result :=
  answer (.ok (udpEncode ⟨sport, dport, length, checksum, payload⟩)) s

/-- UDP.DEC, R143. -/
def execUdpDec (bytes : Bytes) (s : State) : Result :=
  match udpDecode bytes with
  | none => answer .fail s
  | some d =>
    answer (.ok (enc16 d.sport ++ enc16 d.dport ++ enc16 d.length ++ enc16 d.checksum
      ++ enc16 (BitVec.ofNat 16 d.payload.length) ++ d.payload)) s

/-- UDP.SEND, R144: counts one datagram and its bytes, uncapped (UNVERIFIED, log 17: D19). While `ready` = 0 it
answers FAIL (R170; UNVERIFIED, log 10: D22). -/
def execUdpSend (bytes : Bytes) (s : State) : Result :=
  whenReady .fail (fun s => answer (.ok []) (s.countUdpSent bytes.length)) s

/-- UDP.RECV, R145: counts one datagram and its bytes; returns no data. -/
def execUdpRecv (bytes : Bytes) (s : State) : Result :=
  whenReady .fail (fun s => answer (.ok []) (s.countUdpReceived bytes.length)) s

end Sys2Proof.Machine
end

