-- ==== Sys2Proof/Machine/Dispatch.lean ====
section
/-! DEFINITION. One arm per operation of the opcode table (30_encoding.md R90). -/

namespace Sys2Proof.Machine

def exec (i : Instr) (s : State) : Host.Outcome State Fault Refusal :=
  match i with
  -- manager (45_manager.md)
  | .mgrInit => Sys2Proof.Machine.execMgrInit s
  | .mgrProcessEvents => Sys2Proof.Machine.execMgrProcessEvents s
  | .mgrGetStats => Sys2Proof.Machine.execMgrGetStats s
  -- address comparator (40_address_compare.md)
  | .macEq a b => Sys2Proof.Machine.execMacEq a b s
  | .macIsBcast a => Sys2Proof.Machine.execMacIsBcast a s
  | .macIsNull a => Sys2Proof.Machine.execMacIsNull a s
  | .ipaEq a b => Sys2Proof.Machine.execIpaEq a b s
  | .ipaIsBcast a => Sys2Proof.Machine.execIpaIsBcast a s
  | .ipaIsNull a => Sys2Proof.Machine.execIpaIsNull a s
  -- Ethernet (41_ethernet.md)
  | .ethEnc dst src ethertype payload => Sys2Proof.Machine.execEthEnc dst src ethertype payload s
  | .ethDec bytes => Sys2Proof.Machine.execEthDec bytes s
  | .ethAccept dst loc => Sys2Proof.Machine.execEthAccept dst loc s
  -- IP (42_ip.md)
  | .ipEnc src dst proto payload => Sys2Proof.Machine.execIpEnc src dst proto payload s
  | .ipDec bytes => Sys2Proof.Machine.execIpDec bytes s
  | .ipDispatch proto => Sys2Proof.Machine.execIpDispatch proto s
  -- UDP (43_udp.md)
  | .udpEnc sport dport length checksum payload => Sys2Proof.Machine.execUdpEnc sport dport length checksum payload s
  | .udpDec bytes => Sys2Proof.Machine.execUdpDec bytes s
  | .udpSend bytes => Sys2Proof.Machine.execUdpSend bytes s
  | .udpRecv bytes => Sys2Proof.Machine.execUdpRecv bytes s
  -- TCP connection table (44_tcp_table.md)
  | .tcpCreate lport rport => Sys2Proof.Machine.execTcpCreate lport rport s
  | .tcpClose id => Sys2Proof.Machine.execTcpClose id s
  | .tcpSend id data => Sys2Proof.Machine.execTcpSend id data s
  | .tcpRecv id cap => Sys2Proof.Machine.execTcpRecv id cap s

end Sys2Proof.Machine
end

