-- ==== Sys2Proof/Machine/Step.lean ====
section
/-! DEFINITION. One step: the block takes the host's next input and completes it (10_state.md R21, 20_memory.md
R57, 70_reset_and_hazards.md R209: "A model gives each request exactly one step"). -/

namespace Sys2Proof.Machine

/-- One step. With nothing presented the block idles; a reset between requests gives the state of R200; a request
is decoded (R97) and performed from start to end. -/
def step (s : State) : Host.Outcome State Fault Refusal :=
  match s.inputs with
  | [] => idle s
  | .reset :: rest => .next (s.withInputs rest).applyReset
  | .request req :: rest =>
    match decode req with
    | .instr i => exec i (s.withInputs rest)
    | .rejected why => answerRejected why (s.withInputs rest)

/-- The host presents, as its very next input, the message that a row of the opcode table stands for (log 8). -/
def State.withFetchWord (s : State) (nbits w : Nat) : State :=
  s.withInputs (.request (tableMessage nbits w) :: s.inputs)

end Sys2Proof.Machine
end

