-- ==== Sys2Proof/Safety.lean ====
section
/-! DEFINITION. The terms claims about the machine are stated in: what the transport delivers, what counts as a
safe state to step from, what "no state changed" means, and the invariant of 10_state.md section 9. -/

namespace Sys2Proof

/-- Forwarding calls: the seven operations behind the ready gate (00_scope.md glossary, R170). -/
def Op.isForwarding : Op → Bool
  | .tcpCreate | .tcpClose | .tcpSend | .tcpRecv | .udpSend | .udpRecv | .mgrGetStats => true
  | .mgrInit | .mgrProcessEvents | .macEq | .macIsBcast | .macIsNull | .ipaEq | .ipaIsBcast | .ipaIsNull
  | .ethEnc | .ethDec | .ethAccept | .ipEnc | .ipDec | .ipDispatch | .udpEnc | .udpDec => false

/-- Pure operations: they read and write no persistent state (00_scope.md glossary). -/
def Op.isPure : Op → Bool
  | .macEq | .macIsBcast | .macIsNull | .ipaEq | .ipaIsBcast | .ipaIsNull
  | .ethEnc | .ethDec | .ethAccept | .ipEnc | .ipDec | .ipDispatch | .udpEnc | .udpDec => true
  | .mgrInit | .mgrProcessEvents | .mgrGetStats | .udpSend | .udpRecv
  | .tcpCreate | .tcpClose | .tcpSend | .tcpRecv => false

end Sys2Proof

namespace Sys2Proof.Machine

/-- R80: the transport delivers a request of 1 to `REQ_MAX_LEN` bytes. -/
def Delivered (req : Bytes) : Prop := 1 ≤ req.length ∧ req.length ≤ Config.reqMaxLen

/-- A safe state to step from: every request the host will present is one the transport delivers. -/
def SafeInputs (s : State) : Prop := ∀ req, HostInput.request req ∈ s.inputs → Delivered req

/-- The persistent state of the block (10_state.md section 1: `ready`, the two constants, the table and the
counters) is the same in both. -/
structure SamePersistent (s t : State) : Prop where
  ready : t.ready = s.ready
  localMac : t.localMac = s.localMac
  localIp : t.localIp = s.localIp
  slots : t.slots = s.slots
  ctr : t.ctr = s.ctr

/-- The invariant of 10_state.md section 9, items 2 to 4, that every step keeps. Its clauses about `rxq` and about
the receive counters rest on R158 (log 12), those about the Ethernet and IP counters on D20 (log 13). -/
structure ReachInv (s : State) : Prop where
  /-- Item 3: every receive queue is empty. -/
  rxqEmpty : ∀ (k : Fin Config.tcpSlots) (c : Conn), s.slots[k] = some c → c.rxq = []
  /-- Item 4: no operation counts an Ethernet frame or an IP packet. -/
  ethZero : s.ctr.eth = .zero
  ipZero : s.ctr.ip = .zero
  /-- Item 4: TCP.RECV never copies a byte. -/
  tcpRecvZero : s.ctr.tcp.unitsRecv = 0 ∧ s.ctr.tcp.bytesRecv = 0
  /-- Item 2: before MGR.INIT the table is empty and every counter is 0. -/
  unready : s.ready = false → s.slots = Vector.replicate Config.tcpSlots none ∧ s.ctr = .zero

end Sys2Proof.Machine
end

