-- ==== Sys2Proof/WellFormed.lean ====
section
/-! DEFINITION. Well-formed instructions: those that some request expresses. Every operand value is legal
(30_encoding.md R96); only the variable part is bounded, by the longest request (R80, R85). -/

namespace Sys2Proof

/-- The variable part fits a request of at most `REQ_MAX_LEN` bytes after the format's fixed part. With R5's value
these are the operand ranges of R121 (0 to 65520), R123 and R144 (0 to 65534), R131 (0 to 65525), R141 (0 to 65526)
and R154 (0 to 65530); a format without a variable part always fits. -/
def Instr.wellFormed (i : Instr) : Bool :=
  decide (i.op.format.fixedLen + i.variablePart.length ≤ Config.reqMaxLen)

end Sys2Proof
end

