-- ==== Sys2Proof/Certificates/Slice0/Obligations.lean ====
section
/-! DEFINITION. The statements for the provers, from the numbered rules of spec/. Each result statement gives the
next state in full, `{ s with … }`, so that it is the instruction's frame as well: what is not named is unchanged. -/

open Sys2Proof Sys2Proof.Machine

/-! ### Terms of the statements -/

/-- The table of 30_encoding.md R90 with the `F` and variable part of R85, written out from the spec:
opcode, operation, `F`, whether the format has a variable part. -/
def Sys2Proof.Spec.rows : List (Byte × Op × Nat × Bool) :=
  [(0x01, .mgrInit, 1, false), (0x02, .mgrProcessEvents, 1, false), (0x03, .mgrGetStats, 1, false),
   (0x10, .macEq, 13, false), (0x11, .macIsBcast, 7, false), (0x12, .macIsNull, 7, false),
   (0x14, .ipaEq, 9, false), (0x15, .ipaIsBcast, 5, false), (0x16, .ipaIsNull, 5, false),
   (0x20, .ethEnc, 15, true), (0x21, .ethDec, 1, true), (0x22, .ethAccept, 13, false),
   (0x30, .ipEnc, 10, true), (0x31, .ipDec, 1, true), (0x32, .ipDispatch, 2, false),
   (0x40, .udpEnc, 9, true), (0x41, .udpDec, 1, true), (0x42, .udpSend, 1, true), (0x43, .udpRecv, 1, true),
   (0x50, .tcpCreate, 5, false), (0x51, .tcpClose, 5, false), (0x52, .tcpSend, 5, true), (0x53, .tcpRecv, 7, false)]

/-- R83 on a message of `n` bytes. -/
def Sys2Proof.Spec.LengthFits (F : Nat) (hasVar : Bool) (n : Nat) : Prop :=
  (hasVar = true ∧ F ≤ n) ∨ (hasVar = false ∧ n = F)

/-- `msg` is the request of `i`: the encoder writes it and, within the transport's limit, the decoder reads it. -/
def Sys2Proof.Spec.IsRequestOf (msg : Bytes) (i : Instr) : Prop :=
  encode i = msg ∧ (msg.length ≤ 65535 → decode msg = .instr i)

/-- A request with this opcode whose length is bad is answered BAD_REQUEST and changes no state. -/
def Sys2Proof.Spec.BadLength (opcode : Byte) (bad : Nat → Prop) : Prop :=
  ∀ (s : State) (tl : Bytes) (rest : List HostInput), s.inputs = .request (opcode :: tl) :: rest →
    (opcode :: tl).length ≤ 65535 → bad (opcode :: tl).length →
    step s = .next { s with inputs := rest, rsp := some [0xFF] }

open Sys2Proof.Spec

/-! ### Requests, decoding, the step -/

/-- Worked requests of the spec's rules, one for each family, decode to the operation they stand for. -/
def Obligations.SpecRequestsDecodeAsWritten : Prop :=
  decode [0x01] = .instr .mgrInit ∧
  decode [0x10, 0x02, 0, 0, 0, 0, 0x01, 0x02, 0, 0, 0, 0, 0x03]
    = .instr (.macEq ⟨0x02, 0, 0, 0, 0, 0x01⟩ ⟨0x02, 0, 0, 0, 0, 0x03⟩) ∧
  decode [0x20, 0xFF, 0xFF, 0xFF, 0xFF, 0xFF, 0xFF, 0x02, 0, 0, 0, 0, 0x01, 0x08, 0x06, 0xDE, 0xAD]
    = .instr (.ethEnc ⟨0xFF, 0xFF, 0xFF, 0xFF, 0xFF, 0xFF⟩ ⟨0x02, 0, 0, 0, 0, 0x01⟩ 0x0806 [0xDE, 0xAD]) ∧
  decode [0x30, 0xC0, 0xA8, 0x01, 0x64, 0xC0, 0xA8, 0x01, 0x01, 0x11, 0x01, 0x02, 0x03]
    = .instr (.ipEnc ⟨0xC0, 0xA8, 0x01, 0x64⟩ ⟨0xC0, 0xA8, 0x01, 0x01⟩ 17 [0x01, 0x02, 0x03]) ∧
  decode [0x40, 0x04, 0xD2, 0x00, 0x50, 0x00, 0x0D, 0x00, 0x00, 0x47, 0x45, 0x54, 0x20, 0x2F]
    = .instr (.udpEnc 1234 80 13 0 [0x47, 0x45, 0x54, 0x20, 0x2F]) ∧
  decode [0x50, 0x04, 0xD2, 0x00, 0x50] = .instr (.tcpCreate 1234 80) ∧
  decode [0x53, 0x00, 0x00, 0x00, 0x00, 0x05, 0xDC] = .instr (.tcpRecv 0 1500)

/-- Decoding the request of a well-formed operation gives the operation back, every operand at every value its
format admits: no bit of a request is dropped. -/
def Obligations.DecodeOfEncodeIsTheInstruction : Prop :=
  ∀ i : Instr, i.wellFormed = true → decode (encode i) = .instr i

/-- Every request the decoder accepts is the one request of the operation it reads (R96: no reserved bit, every bit
of every operand is used). -/
def Obligations.EncodeOfDecodeIsTheRequest : Prop :=
  ∀ (req : Bytes) (i : Instr), decode req = .instr i → encode i = req ∧ i.wellFormed = true

/-- The decoder accepts exactly the messages of R90 whose length passes R83, and reads the operation of R90. -/
def Obligations.DecodeAcceptsExactlyTheFormats : Prop :=
  ∀ (req : Bytes) (o : Op), (∃ i, decode req = .instr i ∧ i.op = o) ↔
    ∃ b tl F v, req = b :: tl ∧ (b, o, F, v) ∈ rows ∧ req.length ≤ 65535 ∧ LengthFits F v req.length

/-- R84 and R85: each operand is the value of its bytes at the offset of its format, read with the `MemRead` of R9. -/
def Obligations.OperandsStandAtTheirOffsets : Prop :=
  ∀ (req : Bytes) (i : Instr), decode req = .instr i →
    match i with
    | .mgrInit => True
    | .mgrProcessEvents => True
    | .mgrGetStats => True
    | .macEq a b => memRead req 1 6 = some a.bytes ∧ memRead req 7 6 = some b.bytes
    | .macIsBcast a => memRead req 1 6 = some a.bytes
    | .macIsNull a => memRead req 1 6 = some a.bytes
    | .ipaEq a b => memRead req 1 4 = some a.bytes ∧ memRead req 5 4 = some b.bytes
    | .ipaIsBcast a => memRead req 1 4 = some a.bytes
    | .ipaIsNull a => memRead req 1 4 = some a.bytes
    | .ethEnc dst src w p => memRead req 1 6 = some dst.bytes ∧ memRead req 7 6 = some src.bytes ∧
        w = be16 req 13 ∧ p = req.drop 15
    | .ethDec b => b = req.drop 1
    | .ethAccept dst loc => memRead req 1 6 = some dst.bytes ∧ memRead req 7 6 = some loc.bytes
    | .ipEnc src dst proto p => memRead req 1 4 = some src.bytes ∧ memRead req 5 4 = some dst.bytes ∧
        memRead req 9 1 = some [proto] ∧ p = req.drop 10
    | .ipDec b => b = req.drop 1
    | .ipDispatch proto => memRead req 1 1 = some [proto]
    | .udpEnc sport dport length checksum p => sport = be16 req 1 ∧ dport = be16 req 3 ∧ length = be16 req 5 ∧
        checksum = be16 req 7 ∧ p = req.drop 9
    | .udpDec b => b = req.drop 1
    | .udpSend b => b = req.drop 1
    | .udpRecv b => b = req.drop 1
    | .tcpCreate lport rport => lport = be16 req 1 ∧ rport = be16 req 3
    | .tcpClose id => id = be32 req 1
    | .tcpSend id d => id = be32 req 1 ∧ d = req.drop 5
    | .tcpRecv id cap => id = be32 req 1 ∧ cap = be16 req 5

/-- R8: the value of a big-endian field, and that `enc` is its inverse in both directions. -/
def Obligations.BigEndianFieldsAndTheirInverse : Prop :=
  (∀ (s : Bytes) (o : Nat), (be16 s o).toNat = (byteAt s o).toNat * 256 + (byteAt s (o + 1)).toNat) ∧
  (∀ (s : Bytes) (o : Nat), (be32 s o).toNat = (byteAt s o).toNat * 2 ^ 24 + (byteAt s (o + 1)).toNat * 2 ^ 16
    + (byteAt s (o + 2)).toNat * 2 ^ 8 + (byteAt s (o + 3)).toNat) ∧
  (∀ (s : Bytes) (o : Nat), (be64 s o).toNat = (be32 s o).toNat * 2 ^ 32 + (be32 s (o + 4)).toNat) ∧
  (∀ v : Half, ∃ x y : Byte, enc16 v = [x, y] ∧ v.toNat = x.toNat * 256 + y.toNat) ∧
  (∀ v : BitVec 32, (enc32 v).length = 4 ∧ be32 (enc32 v) 0 = v) ∧
  (∀ v : BitVec 64, (enc64 v).length = 8 ∧ be64 (enc64 v) 0 = v)

/-- R93: the reserved opcodes, listed as the rule lists them, are answered BAD_REQUEST whatever the length. -/
def Obligations.ReservedOpcodeAnswersBadRequest : Prop :=
  ∀ (s : State) (b : Byte) (tl : Bytes) (rest : List HostInput), s.inputs = .request (b :: tl) :: rest →
    (b :: tl).length ≤ 65535 →
    (b = 0x00 ∨ (0x04 ≤ b ∧ b ≤ 0x0F) ∨ b = 0x13 ∨ (0x17 ≤ b ∧ b ≤ 0x1F) ∨ (0x23 ≤ b ∧ b ≤ 0x2F) ∨
      (0x33 ≤ b ∧ b ≤ 0x3F) ∨ (0x44 ≤ b ∧ b ≤ 0x4F) ∨ (0x54 ≤ b)) →
    step s = .next { s with inputs := rest, rsp := some [0xFF] }

/-- R83: a recognised opcode with a length its format does not allow is answered BAD_REQUEST, in every state; with a
length it allows the request is that operation's, and its variable part is `req[F:]`. -/
def Obligations.LengthCheckOfEachFormat : Prop :=
  ∀ (b : Byte) (o : Op) (F : Nat) (v : Bool), (b, o, F, v) ∈ rows →
    BadLength b (fun n => ¬ LengthFits F v n) ∧
    ∀ tl : Bytes, (b :: tl).length ≤ 65535 → LengthFits F v (b :: tl).length →
      ∃ i, decode (b :: tl) = .instr i ∧ i.op = o ∧ (v = true → i.variablePart = (b :: tl).drop F) ∧
        (v = false → i.variablePart = [])

/-- R97 and R190: every message of 1 to 65535 bytes gets exactly one response, in every state: the step answers a
next state whose response is OK with fields, FAIL or BAD_REQUEST, and the request is consumed. -/
def Obligations.EveryDeliveredRequestIsAnswered : Prop :=
  ∀ (s : State) (req : Bytes) (rest : List HostInput), s.inputs = .request req :: rest → Delivered req →
    ∃ t r, step s = .next t ∧ t.rsp = some r ∧ t.inputs = rest ∧
      ((∃ f, r = 0x00 :: f) ∨ r = [0x01] ∨ r = [0xFF])

/-- When the presented request decodes to `i`, the step is exec of `i` with that request taken. -/
def Obligations.StepRunsTheDecodedInstruction : Prop :=
  ∀ (s : State) (req : Bytes) (rest : List HostInput) (i : Instr), s.inputs = .request req :: rest →
    decode req = .instr i → step s = exec i { s with inputs := rest }

/-- The model's own convention (log 2): with nothing presented nothing changes. -/
def Obligations.StepWithNothingPresentedIsIdle : Prop :=
  ∀ s : State, s.inputs = [] → step s = .next s

/-- The model's own convention (log 3): a step stops on a message outside the transport's lengths and on nothing
else, and no step is ever refused. -/
def Obligations.StepStopsOnlyOnUndeliveredMessages : Prop :=
  (∀ (s : State) (r : Fault), step s = .fault r ↔
    ((∃ rest, s.inputs = .request [] :: rest) ∧ r = .emptyRequest) ∨
    ((∃ req rest, s.inputs = .request req :: rest ∧ 65535 < req.length) ∧ r = .overlongRequest)) ∧
  (∀ (s : State) (r : Refusal), step s ≠ .refused r)

/-- R200 after a reset between requests (that the host's further inputs stay is the model's choice, log 4). -/
def Obligations.ResetGivesTheConstructedState : Prop :=
  ∀ (s : State) (rest : List HostInput), s.inputs = .reset :: rest →
    ∃ t, step s = .next t ∧ t.ready = false ∧ (∀ k : Fin 64, t.slots[k] = none) ∧
      (∀ c ∈ t.ctr.inOrder, c = 0) ∧ t.localMac = s.localMac ∧ t.localIp = s.localIp ∧ t.rsp = none ∧ t.inputs = rest

/-- R200: what a constructed block holds, for every pair of construction arguments (R202: they are not checked),
and that the reset state is one of these. -/
def Obligations.ResetStateIsTheConstructedState : Prop :=
  (∀ (mac : Mac) (ip : Ipa), (State.construct mac ip).ready = false ∧
    (∀ k : Fin 64, (State.construct mac ip).slots[k] = none) ∧
    (State.construct mac ip).ctr.inOrder = List.replicate 16 0 ∧
    (State.construct mac ip).localMac = mac ∧ (State.construct mac ip).localIp = ip ∧
    (State.construct mac ip).rsp = none) ∧
  ∃ mac ip, State.reset = State.construct mac ip

/-! ### Address comparator -/

/-- R110 to R113: MAC.EQ, MAC.ISBCAST and MAC.ISNULL. -/
def Obligations.MacPredicatesAnswer : Prop :=
  (∀ (a b : Mac) (s : State),
    IsRequestOf (0x10 :: (a.bytes ++ b.bytes)) (.macEq a b) ∧
    ((∀ k < 6, byteAt a.bytes k = byteAt b.bytes k) →
      exec (.macEq a b) s = .next { s with rsp := some [0x00, 0x01] }) ∧
    (¬ (∀ k < 6, byteAt a.bytes k = byteAt b.bytes k) →
      exec (.macEq a b) s = .next { s with rsp := some [0x00, 0x00] })) ∧
  (∀ (a : Mac) (s : State),
    IsRequestOf (0x11 :: a.bytes) (.macIsBcast a) ∧
    ((∀ k < 6, byteAt a.bytes k = 0xFF) → exec (.macIsBcast a) s = .next { s with rsp := some [0x00, 0x01] }) ∧
    (¬ (∀ k < 6, byteAt a.bytes k = 0xFF) → exec (.macIsBcast a) s = .next { s with rsp := some [0x00, 0x00] })) ∧
  (∀ (a : Mac) (s : State),
    IsRequestOf (0x12 :: a.bytes) (.macIsNull a) ∧
    ((∀ k < 6, byteAt a.bytes k = 0x00) → exec (.macIsNull a) s = .next { s with rsp := some [0x00, 0x01] }) ∧
    (¬ (∀ k < 6, byteAt a.bytes k = 0x00) → exec (.macIsNull a) s = .next { s with rsp := some [0x00, 0x00] })) ∧
  BadLength 0x10 (· ≠ 13) ∧ BadLength 0x11 (· ≠ 7) ∧ BadLength 0x12 (· ≠ 7)

/-- R114 to R117: IPA.EQ, IPA.ISBCAST and IPA.ISNULL (the last two by the spec's decision D13). -/
def Obligations.IpaPredicatesAnswer : Prop :=
  (∀ (a b : Ipa) (s : State),
    IsRequestOf (0x14 :: (a.bytes ++ b.bytes)) (.ipaEq a b) ∧
    ((∀ k < 4, byteAt a.bytes k = byteAt b.bytes k) →
      exec (.ipaEq a b) s = .next { s with rsp := some [0x00, 0x01] }) ∧
    (¬ (∀ k < 4, byteAt a.bytes k = byteAt b.bytes k) →
      exec (.ipaEq a b) s = .next { s with rsp := some [0x00, 0x00] })) ∧
  (∀ (a : Ipa) (s : State),
    IsRequestOf (0x15 :: a.bytes) (.ipaIsBcast a) ∧
    ((∀ k < 4, byteAt a.bytes k = 0xFF) → exec (.ipaIsBcast a) s = .next { s with rsp := some [0x00, 0x01] }) ∧
    (¬ (∀ k < 4, byteAt a.bytes k = 0xFF) → exec (.ipaIsBcast a) s = .next { s with rsp := some [0x00, 0x00] })) ∧
  (∀ (a : Ipa) (s : State),
    IsRequestOf (0x16 :: a.bytes) (.ipaIsNull a) ∧
    ((∀ k < 4, byteAt a.bytes k = 0x00) → exec (.ipaIsNull a) s = .next { s with rsp := some [0x00, 0x01] }) ∧
    (¬ (∀ k < 4, byteAt a.bytes k = 0x00) → exec (.ipaIsNull a) s = .next { s with rsp := some [0x00, 0x00] })) ∧
  BadLength 0x14 (· ≠ 9) ∧ BadLength 0x15 (· ≠ 5) ∧ BadLength 0x16 (· ≠ 5)

/-- 40_address_compare.md section 4: the comparator's laws, for MAC and for IP addresses. -/
def Obligations.ComparatorLaws : Prop :=
  (∀ a b : Mac, macEq a b = true ↔ a = b) ∧
  (∀ a : Mac, ¬ (macIsBcast a = true ∧ macIsNull a = true)) ∧
  (∀ a : Mac, macIsBcast a = macEq a ⟨0xFF, 0xFF, 0xFF, 0xFF, 0xFF, 0xFF⟩) ∧
  (∀ a b : Ipa, ipaEq a b = true ↔ a = b) ∧
  (∀ a : Ipa, ¬ (ipaIsBcast a = true ∧ ipaIsNull a = true)) ∧
  (∀ a : Ipa, ipaIsBcast a = ipaEq a ⟨0xFF, 0xFF, 0xFF, 0xFF⟩)

/-! ### Ethernet -/

/-- R75: `etnorm`, and that its values are the four codes. -/
def Obligations.EtherTypeIsNormalised : Prop :=
  (∀ w : Half, (w = 0x0800 ∨ w = 0x86DD ∨ w = 0x0806) → etnorm w = w) ∧
  (∀ w : Half, ¬ (w = 0x0800 ∨ w = 0x86DD ∨ w = 0x0806) → etnorm w = 0x0000) ∧
  (∀ e : EtherType, EtherType.ofWire e.code = e)

/-- R120 and R121: ETH.ENC (the operand normalised by the spec's decision D10). -/
def Obligations.EthEncAnswersTheFrame : Prop :=
  (∀ (dst src : Mac) (w : Half) (p : Bytes) (s : State),
    IsRequestOf (0x20 :: (dst.bytes ++ src.bytes ++ enc16 w ++ p)) (.ethEnc dst src w p) ∧
    exec (.ethEnc dst src w p) s
      = .next { s with rsp := some (0x00 :: (dst.bytes ++ src.bytes ++ enc16 (etnorm w) ++ p.take 1500)) } ∧
    (dst.bytes ++ src.bytes ++ enc16 (etnorm w) ++ p.take 1500).length = 14 + min p.length 1500) ∧
  BadLength 0x20 (· < 15)

/-- R122 and R123: ETH.DEC. -/
def Obligations.EthDecAnswersTheFields : Prop :=
  ∀ (b : Bytes) (s : State),
    IsRequestOf (0x21 :: b) (.ethDec b) ∧
    (b.length < 14 → exec (.ethDec b) s = .next { s with rsp := some [0x01] }) ∧
    (1514 < b.length → exec (.ethDec b) s = .next { s with rsp := some [0x01] }) ∧
    (14 ≤ b.length → b.length ≤ 1514 →
      exec (.ethDec b) s = .next { s with rsp := some (0x00 ::
        (b.take 12 ++ enc16 (etnorm (be16 b 12)) ++ enc16 (BitVec.ofNat 16 (b.length - 14)) ++ b.drop 14)) })

/-- R124 and R125: ETH.ACCEPT (the operands by the spec's decision D31). -/
def Obligations.EthAcceptAnswers : Prop :=
  (∀ (dst loc : Mac) (s : State),
    IsRequestOf (0x22 :: (dst.bytes ++ loc.bytes)) (.ethAccept dst loc) ∧
    ((dst = ⟨0xFF, 0xFF, 0xFF, 0xFF, 0xFF, 0xFF⟩ ∨ dst = loc) →
      exec (.ethAccept dst loc) s = .next { s with rsp := some [0x00, 0x01] }) ∧
    (¬ (dst = ⟨0xFF, 0xFF, 0xFF, 0xFF, 0xFF, 0xFF⟩ ∨ dst = loc) →
      exec (.ethAccept dst loc) s = .next { s with rsp := some [0x00, 0x00] })) ∧
  BadLength 0x22 (· ≠ 13)

/-- R99: ETH.ACCEPT.LOCAL is ETH.ACCEPT with `LOCAL_MAC` for the local address. -/
def Obligations.EthAcceptLocalUsesLocalMac : Prop :=
  ∀ (s : State) (dst : Mac),
    encode (ethAcceptLocal s dst) = 0x22 :: (dst.bytes ++ s.localMac.bytes) ∧
    ∃ b, exec (ethAcceptLocal s dst) s = .next { s with rsp := some [0x00, b] } ∧
      (b = 0x01 ∨ b = 0x00) ∧
      (b = 0x01 ↔ dst = ⟨0xFF, 0xFF, 0xFF, 0xFF, 0xFF, 0xFF⟩ ∨ dst = s.localMac)

/-- R126: decode of encode gives the frame back, its payload cut to 1500 bytes; encode of decode gives the bytes
back with the EtherType normalised. -/
def Obligations.EthernetRoundTrip : Prop :=
  (∀ f : EthFrame, ethDecode (ethEncode f) = some { f with payload := f.payload.take 1500 }) ∧
  (∀ f : EthFrame, f.payload.length ≤ 1500 → ethDecode (ethEncode f) = some f) ∧
  (∀ b : Bytes, 14 ≤ b.length → b.length ≤ 1514 → ∃ f, ethDecode b = some f ∧
    f.payload.length = b.length - 14 ∧
    ethEncode f = b.take 12 ++ enc16 (etnorm (be16 b 12)) ++ b.drop 14 ∧
    (ethEncode f = b ↔ be16 b 12 = 0x0800 ∨ be16 b 12 = 0x86DD ∨ be16 b 12 = 0x0806 ∨ be16 b 12 = 0x0000))

/-! ### IP -/

/-- R130 and R131: IP.ENC (layout and cap by the spec's decisions D11 and D12). -/
def Obligations.IpEncAnswersThePacket : Prop :=
  (∀ (src dst : Ipa) (proto : Byte) (p : Bytes) (s : State),
    IsRequestOf (0x30 :: (src.bytes ++ dst.bytes ++ [proto] ++ p)) (.ipEnc src dst proto p) ∧
    exec (.ipEnc src dst proto p) s = .next { s with rsp := some (0x00 ::
      (List.replicate 9 0x00 ++ [proto] ++ [0x00, 0x00] ++ src.bytes ++ dst.bytes ++ p.take 1480)) } ∧
    (List.replicate 9 0x00 ++ [proto] ++ [0x00, 0x00] ++ src.bytes ++ dst.bytes ++ p.take 1480).length
      = 20 + min p.length 1480) ∧
  BadLength 0x30 (· < 10)

/-- R132 and R133: IP.DEC (layout and cap by the spec's decisions D11 and D12). -/
def Obligations.IpDecAnswersTheFields : Prop :=
  ∀ (b : Bytes) (s : State),
    IsRequestOf (0x31 :: b) (.ipDec b) ∧
    (b.length < 20 → exec (.ipDec b) s = .next { s with rsp := some [0x01] }) ∧
    (1500 < b.length → exec (.ipDec b) s = .next { s with rsp := some [0x01] }) ∧
    (20 ≤ b.length → b.length ≤ 1500 →
      exec (.ipDec b) s = .next { s with rsp := some (0x00 ::
        (slice b 12 4 ++ slice b 16 4 ++ slice b 9 1 ++ enc16 (BitVec.ofNat 16 (b.length - 20)) ++ b.drop 20)) })

/-- R134 and R135: IP.DISPATCH. -/
def Obligations.IpDispatchAnswers : Prop :=
  (∀ (proto : Byte) (s : State),
    IsRequestOf [0x32, proto] (.ipDispatch proto) ∧
    ((proto = 1 ∨ proto = 6 ∨ proto = 17) →
      exec (.ipDispatch proto) s = .next { s with rsp := some [0x00, proto] }) ∧
    (¬ (proto = 1 ∨ proto = 6 ∨ proto = 17) → exec (.ipDispatch proto) s = .next { s with rsp := some [0x01] })) ∧
  BadLength 0x32 (· ≠ 2)

/-- R136: the IP round trips. -/
def Obligations.IpRoundTrip : Prop :=
  (∀ p : IpPacket, ipDecode (ipEncode p) = some { p with payload := p.payload.take 1480 }) ∧
  (∀ p : IpPacket, p.payload.length ≤ 1480 → ipDecode (ipEncode p) = some p) ∧
  (∀ b : Bytes, 20 ≤ b.length → b.length ≤ 1500 → ∃ p, ipDecode b = some p ∧ p.payload.length = b.length - 20 ∧
    ipEncode p = List.replicate 9 0x00 ++ slice b 9 1 ++ [0x00, 0x00] ++ b.drop 12)

/-- R137: the three caps nest. A chain UDP.ENC, IP.ENC, ETH.ENC cuts only at the UDP step, and the decoders take a
1514-byte frame apart without rejecting it for size. -/
def Obligations.CapsNest : Prop :=
  (∀ (d : UdpDatagram) (si di : Ipa) (proto : Byte) (dm sm : Mac) (et : EtherType),
    let u := udpEncode d
    let p : IpPacket := ⟨si, di, proto, u⟩
    let f : EthFrame := ⟨dm, sm, et, ipEncode p⟩
    ethDecode (ethEncode f) = some f ∧ ipDecode f.payload = some p ∧
      udpDecode p.payload = some { d with payload := d.payload.take 1472 }) ∧
  (∀ b : Bytes, b.length = 1514 → ∃ f p d, ethDecode b = some f ∧ ipDecode f.payload = some p ∧
    udpDecode p.payload = some d)

/-! ### UDP -/

/-- R140 and R141, with the checksum and length policies R147 and R148: UDP.ENC writes every header field as given. -/
def Obligations.UdpEncAnswersTheDatagram : Prop :=
  (∀ (sport dport length checksum : Half) (p : Bytes) (s : State),
    IsRequestOf (0x40 :: (enc16 sport ++ enc16 dport ++ enc16 length ++ enc16 checksum ++ p))
      (.udpEnc sport dport length checksum p) ∧
    exec (.udpEnc sport dport length checksum p) s = .next { s with rsp := some (0x00 ::
      (enc16 sport ++ enc16 dport ++ enc16 length ++ enc16 checksum ++ p.take 1472)) } ∧
    (enc16 sport ++ enc16 dport ++ enc16 length ++ enc16 checksum ++ p.take 1472).length = 8 + min p.length 1472) ∧
  BadLength 0x40 (· < 9)

/-- R142 and R143: UDP.DEC returns the header as read and takes the payload length from the byte string. -/
def Obligations.UdpDecAnswersTheFields : Prop :=
  ∀ (b : Bytes) (s : State),
    IsRequestOf (0x41 :: b) (.udpDec b) ∧
    (b.length < 8 → exec (.udpDec b) s = .next { s with rsp := some [0x01] }) ∧
    (1480 < b.length → exec (.udpDec b) s = .next { s with rsp := some [0x01] }) ∧
    (8 ≤ b.length → b.length ≤ 1480 →
      exec (.udpDec b) s = .next { s with rsp := some (0x00 ::
        (b.take 8 ++ enc16 (BitVec.ofNat 16 (b.length - 8)) ++ b.drop 8)) })

/-- R146: the UDP round trips; no field is normalised. -/
def Obligations.UdpRoundTrip : Prop :=
  (∀ d : UdpDatagram, udpDecode (udpEncode d) = some { d with payload := d.payload.take 1472 }) ∧
  (∀ d : UdpDatagram, d.payload.length ≤ 1472 → udpDecode (udpEncode d) = some d) ∧
  (∀ b : Bytes, 8 ≤ b.length → b.length ≤ 1480 → ∃ d, udpDecode b = some d ∧ d.payload.length = b.length - 8 ∧
    udpEncode d = b)

/-- R144 and R145: UDP.SEND and UDP.RECV count one datagram and its bytes, modulo 2^64, and nothing else. That the
un-ready answer is FAIL is the spec's decision D22 (log 10). -/
def Obligations.UdpSendAndRecvCount : Prop :=
  ∀ (b : Bytes) (s : State),
    IsRequestOf (0x42 :: b) (.udpSend b) ∧ IsRequestOf (0x43 :: b) (.udpRecv b) ∧
    (s.ready = true → exec (.udpSend b) s = .next { s with
      rsp := some [0x00],
      ctr := { s.ctr with udp := { s.ctr.udp with
        unitsSent := s.ctr.udp.unitsSent + 1, bytesSent := s.ctr.udp.bytesSent + BitVec.ofNat 64 b.length } } }) ∧
    (s.ready = true → exec (.udpRecv b) s = .next { s with
      rsp := some [0x00],
      ctr := { s.ctr with udp := { s.ctr.udp with
        unitsRecv := s.ctr.udp.unitsRecv + 1, bytesRecv := s.ctr.udp.bytesRecv + BitVec.ofNat 64 b.length } } }) ∧
    (s.ready = false → exec (.udpSend b) s = .next { s with rsp := some [0x01] } ∧
      exec (.udpRecv b) s = .next { s with rsp := some [0x01] })

/-! ### TCP connection table -/

/-- R150: TCP.CREATE takes the smallest Empty slot (the order is the spec's decision D15) and its id is the response;
with no Empty slot, or while `ready` = 0, FAIL. -/
def Obligations.TcpCreateTakesTheSmallestFreeSlot : Prop :=
  (∀ (lport rport : Half) (s : State),
    IsRequestOf (0x50 :: (enc16 lport ++ enc16 rport)) (.tcpCreate lport rport) ∧
    (s.ready = false → exec (.tcpCreate lport rport) s = .next { s with rsp := some [0x01] }) ∧
    (s.ready = true → (∀ k : Fin 64, s.slots[k] ≠ none) →
      exec (.tcpCreate lport rport) s = .next { s with rsp := some [0x01] }) ∧
    (s.ready = true → ∀ k : Fin 64, s.slots[k] = none → (∀ j < k, s.slots[j] ≠ none) →
      exec (.tcpCreate lport rport) s = .next { s with
        slots := s.slots.set k (some ⟨lport, rport, []⟩),
        rsp := some [0x00, 0x00, 0x00, 0x00, BitVec.ofNat 8 k.val] })) ∧
  BadLength 0x50 (· ≠ 5)

/-- R152 and R153: TCP.CLOSE vacates the slot its id names; FAIL for an id of 64 or more (as a whole 32-bit number),
an Empty slot, or `ready` = 0. -/
def Obligations.TcpCloseVacatesTheSlot : Prop :=
  (∀ (id : ConnId) (s : State),
    IsRequestOf (0x51 :: enc32 id) (.tcpClose id) ∧
    (s.ready = false → exec (.tcpClose id) s = .next { s with rsp := some [0x01] }) ∧
    (64 ≤ id.toNat → exec (.tcpClose id) s = .next { s with rsp := some [0x01] }) ∧
    (∀ k : Fin 64, id.toNat = k.val → s.slots[k] = none →
      exec (.tcpClose id) s = .next { s with rsp := some [0x01] }) ∧
    (s.ready = true → ∀ (k : Fin 64) (c : Conn), id.toNat = k.val → s.slots[k] = some c →
      exec (.tcpClose id) s = .next { s with slots := s.slots.set k none, rsp := some [0x00] })) ∧
  BadLength 0x51 (· ≠ 5)

/-- R154: TCP.SEND on an Occupied slot adds 1 and the data's length to two counters and changes nothing else;
otherwise FAIL. -/
def Obligations.TcpSendCounts : Prop :=
  (∀ (id : ConnId) (d : Bytes) (s : State),
    IsRequestOf (0x52 :: (enc32 id ++ d)) (.tcpSend id d) ∧
    (s.ready = false → exec (.tcpSend id d) s = .next { s with rsp := some [0x01] }) ∧
    (64 ≤ id.toNat → exec (.tcpSend id d) s = .next { s with rsp := some [0x01] }) ∧
    (∀ k : Fin 64, id.toNat = k.val → s.slots[k] = none →
      exec (.tcpSend id d) s = .next { s with rsp := some [0x01] }) ∧
    (s.ready = true → ∀ (k : Fin 64) (c : Conn), id.toNat = k.val → s.slots[k] = some c →
      exec (.tcpSend id d) s = .next { s with
        rsp := some [0x00],
        ctr := { s.ctr with tcp := { s.ctr.tcp with
          unitsSent := s.ctr.tcp.unitsSent + 1, bytesSent := s.ctr.tcp.bytesSent + BitVec.ofNat 64 d.length } } })) ∧
  BadLength 0x52 (· < 5)

/-- R155: a successful send raises the TCP "bytes sent" counter, and the sum of the four, by exactly the data's length;
a failed send changes no counter. -/
def Obligations.SendStatisticsLaw : Prop :=
  ∀ (id : ConnId) (d : Bytes) (s t : State), exec (.tcpSend id d) s = .next t →
    (t.rsp = some [0x00] ∧
      t.ctr.tcp.bytesSent = s.ctr.tcp.bytesSent + BitVec.ofNat 64 d.length ∧
      t.ctr.eth.bytesSent + t.ctr.ip.bytesSent + t.ctr.tcp.bytesSent + t.ctr.udp.bytesSent
        = s.ctr.eth.bytesSent + s.ctr.ip.bytesSent + s.ctr.tcp.bytesSent + s.ctr.udp.bytesSent
          + BitVec.ofNat 64 d.length) ∨
    (t.rsp = some [0x01] ∧ t.ctr = s.ctr)

/-- R156: TCP.RECV in its general form, in states with a non-empty queue too. The sentinel is OK with count 0. -/
def Obligations.TcpRecvMovesQueuedBytes : Prop :=
  (∀ (id : ConnId) (cap : Half) (s : State),
    IsRequestOf (0x53 :: (enc32 id ++ enc16 cap)) (.tcpRecv id cap) ∧
    (s.ready = false → exec (.tcpRecv id cap) s = .next { s with rsp := some [0x00, 0x00, 0x00] }) ∧
    (64 ≤ id.toNat → exec (.tcpRecv id cap) s = .next { s with rsp := some [0x00, 0x00, 0x00] }) ∧
    (∀ k : Fin 64, id.toNat = k.val → s.slots[k] = none →
      exec (.tcpRecv id cap) s = .next { s with rsp := some [0x00, 0x00, 0x00] }) ∧
    (s.ready = true → ∀ (k : Fin 64) (c : Conn), id.toNat = k.val → s.slots[k] = some c →
      min c.rxq.length cap.toNat = 0 →
      exec (.tcpRecv id cap) s = .next { s with rsp := some [0x00, 0x00, 0x00] }) ∧
    (s.ready = true → ∀ (k : Fin 64) (c : Conn) (n : Nat), id.toNat = k.val → s.slots[k] = some c →
      n = min c.rxq.length cap.toNat → 0 < n →
      exec (.tcpRecv id cap) s = .next { s with
        slots := s.slots.set k (some { c with rxq := c.rxq.drop n }),
        ctr := { s.ctr with tcp := { s.ctr.tcp with
          unitsRecv := s.ctr.tcp.unitsRecv + 1, bytesRecv := s.ctr.tcp.bytesRecv + BitVec.ofNat 64 n } },
        rsp := some (0x00 :: (enc16 (BitVec.ofNat 16 n) ++ c.rxq.take n)) })) ∧
  BadLength 0x53 (· ≠ 7)

/-- R157: under the invariant that every step keeps (it rests on R158, log 12), TCP.RECV answers count 0 and changes
no state. -/
def Obligations.TcpRecvDeliversNothingReachable : Prop :=
  ∀ (id : ConnId) (cap : Half) (s : State), ReachInv s →
    exec (.tcpRecv id cap) s = .next { s with rsp := some [0x00, 0x00, 0x00] }

/-- R159: from a ready block with an empty table, up to 64 creates in a row succeed; create number `k` gets id `k`, and
the table then holds exactly their ports. With all 64 taken the next one fails. -/
def Obligations.CreatesFillTheTableInOrder : Prop :=
  (∀ (ports : List (Half × Half)) (rest : List HostInput) (s : State),
    s.ready = true → (∀ k : Fin 64, s.slots[k] = none) → ports.length ≤ 64 →
    s.inputs = ports.map (fun p => .request (encode (.tcpCreate p.1 p.2))) ++ rest →
    ∃ t, Host.Core.run Sys2Proof.core ports.length s = .next t ∧
      (∀ k : Fin 64, t.slots[k] = (ports[k.val]?).map (fun p => ⟨p.1, p.2, []⟩)) ∧
      t.ready = true ∧ t.ctr = s.ctr ∧ t.inputs = rest ∧
      (0 < ports.length → t.rsp = some (0x00 :: enc32 (BitVec.ofNat 32 (ports.length - 1))))) ∧
  (∀ (lport rport : Half) (s : State), s.ready = true → (∀ k : Fin 64, s.slots[k] ≠ none) →
    exec (.tcpCreate lport rport) s = .next { s with rsp := some [0x01] })

/-- R151: after a successful close of `id`, the next create succeeds with the smallest free index, which is `id`
exactly when no smaller index is free. -/
def Obligations.ClosedIdIsHandedOutAgain : Prop :=
  ∀ (id : ConnId) (lport rport : Half) (s t : State), exec (.tcpClose id) s = .next t → t.rsp = some [0x00] →
    ∃ (u : State) (k : Fin 64), exec (.tcpCreate lport rport) t = .next u ∧
      u.rsp = some (0x00 :: enc32 (BitVec.ofNat 32 k.val)) ∧
      t.slots[k] = none ∧ (∀ j < k, t.slots[j] ≠ none) ∧ u.slots[k] = some ⟨lport, rport, []⟩ ∧
      k.val ≤ id.toNat ∧ (k.val = id.toNat ↔ ∀ j : Fin 64, j.val < id.toNat → s.slots[j] ≠ none)

/-! ### Manager -/

/-- R165 and R166: MGR.INIT sets `ready` and touches nothing else; MGR.PROCESS_EVENTS does nothing, ready or not. -/
def Obligations.InitAndProcessEventsAnswer : Prop :=
  (∀ s : State, exec .mgrInit s = .next { s with ready := true, rsp := some [0x00] }) ∧
  (∀ s : State, exec .mgrProcessEvents s = .next { s with rsp := some [0x00] }) ∧
  IsRequestOf [0x01] .mgrInit ∧ IsRequestOf [0x02] .mgrProcessEvents ∧
  BadLength 0x01 (· ≠ 1) ∧ BadLength 0x02 (· ≠ 1)

/-- R167 and R168: MGR.GET_STATS on a ready block answers the sixteen counters in the order of R28, counter `k` at
offset `1 + 8k`, then the number of Occupied slots at offset 129; on an un-ready block 132 bytes 0x00. -/
def Obligations.GetStatsAnswersTheSnapshot : Prop :=
  IsRequestOf [0x03] .mgrGetStats ∧ BadLength 0x03 (· ≠ 1) ∧
  (∀ s : State, s.ready = false →
    exec .mgrGetStats s = .next { s with rsp := some (0x00 :: List.replicate 132 0x00) }) ∧
  (∀ s : State, s.ready = true → ∃ r, exec .mgrGetStats s = .next { s with rsp := some r } ∧
    r.length = 133 ∧ byteAt r 0 = 0x00 ∧
    be64 r 1 = s.ctr.eth.unitsSent ∧ be64 r 9 = s.ctr.eth.unitsRecv ∧
    be64 r 17 = s.ctr.eth.bytesSent ∧ be64 r 25 = s.ctr.eth.bytesRecv ∧
    be64 r 33 = s.ctr.ip.unitsSent ∧ be64 r 41 = s.ctr.ip.unitsRecv ∧
    be64 r 49 = s.ctr.ip.bytesSent ∧ be64 r 57 = s.ctr.ip.bytesRecv ∧
    be64 r 65 = s.ctr.tcp.unitsSent ∧ be64 r 73 = s.ctr.tcp.unitsRecv ∧
    be64 r 81 = s.ctr.tcp.bytesSent ∧ be64 r 89 = s.ctr.tcp.bytesRecv ∧
    be64 r 97 = s.ctr.udp.unitsSent ∧ be64 r 105 = s.ctr.udp.unitsRecv ∧
    be64 r 113 = s.ctr.udp.bytesSent ∧ be64 r 121 = s.ctr.udp.bytesRecv ∧
    (be32 r 129).toNat = (List.finRange 64).countP (fun k => (s.slots[k]).isSome))

/-- R168, R170: before MGR.INIT the zero snapshot is the true one, under the invariant that every step keeps. -/
def Obligations.UnreadySnapshotIsTheTrueOne : Prop :=
  ∀ s : State, ReachInv s → s.ready = false → exec .mgrGetStats s = .next { s with rsp := some (0x00 :: snapshot s) }

/-- R170: the answers of the seven forwarding calls while `ready` = 0, with no state changed. The table is the spec's
decision D22 (log 9, log 10). -/
def Obligations.ReadyGateAnswers : Prop :=
  ∀ s : State, s.ready = false →
    (∀ lport rport, exec (.tcpCreate lport rport) s = .next { s with rsp := some [0x01] }) ∧
    (∀ id, exec (.tcpClose id) s = .next { s with rsp := some [0x01] }) ∧
    (∀ id d, exec (.tcpSend id d) s = .next { s with rsp := some [0x01] }) ∧
    (∀ id cap, exec (.tcpRecv id cap) s = .next { s with rsp := some [0x00, 0x00, 0x00] }) ∧
    (∀ b, exec (.udpSend b) s = .next { s with rsp := some [0x01] }) ∧
    (∀ b, exec (.udpRecv b) s = .next { s with rsp := some [0x01] }) ∧
    exec .mgrGetStats s = .next { s with rsp := some (0x00 :: List.replicate 132 0x00) }

/-- R170: an operation that is no forwarding call answers the same whatever `ready` is. -/
def Obligations.OtherOperationsIgnoreReady : Prop :=
  ∀ (i : Instr) (s : State) (b : Bool), i.op.isForwarding = false →
    ∃ t u, exec i s = .next t ∧ exec i { s with ready := b } = .next u ∧ u.rsp = t.rsp

/-- R30 and 10_state.md section 9 item 1: the active count is in 0..64; a successful create raises it by one, a
successful close lowers it by one, and no other operation moves it. -/
def Obligations.ActiveCountMovesByOne : Prop :=
  ∀ (i : Instr) (s t : State), exec i s = .next t → t.active ≤ 64 ∧
    ((t.active = s.active ∧ (t.rsp ≠ some [0x00] ∨ i.op ≠ .tcpClose) ∧ (t.rsp = some [0x01] ∨ i.op ≠ .tcpCreate)) ∨
     (i.op = .tcpCreate ∧ t.rsp ≠ some [0x01] ∧ t.active = s.active + 1) ∨
     (i.op = .tcpClose ∧ t.rsp = some [0x00] ∧ t.active + 1 = s.active))

/-! ### Rules of the whole machine -/

/-- The invariant of 10_state.md section 9, items 2 to 4, is kept by every step from every state that meets it (it
rests on R158 and D20, log 12 and log 13). -/
def Obligations.StepKeepsReachInv : Prop :=
  ∀ s t : State, ReachInv s → step s = .next t → ReachInv t

/-- The invariant holds of every constructed block, so at reset. -/
def Obligations.ReachInvHoldsAtReset : Prop :=
  (∀ (mac : Mac) (ip : Ipa), ReachInv (State.construct mac ip)) ∧ ReachInv State.reset

/-- R22 and R201: MGR.INIT alone sets `ready`, nothing but a reset clears it. -/
def Obligations.OnlyInitSetsReadyOnlyResetClearsIt : Prop :=
  ∀ s t : State, step s = .next t →
    (s.ready = false → t.ready = true →
      ∃ req rest, s.inputs = .request req :: rest ∧ decode req = .instr .mgrInit) ∧
    (s.ready = true → t.ready = false → ∃ rest, s.inputs = .reset :: rest)

/-- R189: a request answered FAIL or BAD_REQUEST changes no persistent state. -/
def Obligations.FailuresChangeNothing : Prop :=
  ∀ (s t : State) (req : Bytes) (rest : List HostInput), s.inputs = .request req :: rest → step s = .next t →
    (t.rsp = some [0x01] ∨ t.rsp = some [0xFF]) → SamePersistent s t

/-- R55: a pure operation gives the same response to the same request in every state and changes nothing else. -/
def Obligations.PureOperationsReadAndWriteNoState : Prop :=
  ∀ i : Instr, i.op.isPure = true → ∃ r, ∀ s : State, exec i s = .next { s with rsp := some r }

/-- R29: which operations add to which counters, and that none adds to those of Ethernet and IP (D20, log 13). -/
def Obligations.CountersHaveTheirWriters : Prop :=
  ∀ (i : Instr) (s t : State), exec i s = .next t →
    t.ctr.eth = s.ctr.eth ∧ t.ctr.ip = s.ctr.ip ∧
    (i.op ≠ .tcpSend → t.ctr.tcp.unitsSent = s.ctr.tcp.unitsSent ∧ t.ctr.tcp.bytesSent = s.ctr.tcp.bytesSent) ∧
    (i.op ≠ .tcpRecv → t.ctr.tcp.unitsRecv = s.ctr.tcp.unitsRecv ∧ t.ctr.tcp.bytesRecv = s.ctr.tcp.bytesRecv) ∧
    (i.op ≠ .udpSend → t.ctr.udp.unitsSent = s.ctr.udp.unitsSent ∧ t.ctr.udp.bytesSent = s.ctr.udp.bytesSent) ∧
    (i.op ≠ .udpRecv → t.ctr.udp.unitsRecv = s.ctr.udp.unitsRecv ∧ t.ctr.udp.bytesRecv = s.ctr.udp.bytesRecv)

/-- R12: a request adds at most 65535 to a counter, modulo 2^64, so none wraps in fewer than 2^48 requests. -/
def Obligations.CountersAdvanceByAtMost65535 : Prop :=
  ∀ (s t : State) (req : Bytes) (rest : List HostInput), s.inputs = .request req :: rest → step s = .next t →
    ∀ k < 16, ∃ d ≤ 65535, (t.ctr.inOrder.getD k 0).toNat = ((s.ctr.inOrder.getD k 0).toNat + d) % 2 ^ 64

/-- R25 to R27 and R158: how a slot can change. An Empty slot becomes Occupied by a create, with an empty queue; an
Occupied one Empty by a close of its id; TCP.RECV takes bytes from the front of a queue; nothing appends to one. -/
def Obligations.SlotsHaveTheirWriters : Prop :=
  ∀ (i : Instr) (s t : State), exec i s = .next t → ∀ k : Fin 64,
    t.slots[k] = s.slots[k] ∨
    (∃ lport rport, i = .tcpCreate lport rport ∧ s.slots[k] = none ∧ t.slots[k] = some ⟨lport, rport, []⟩) ∨
    (∃ id c, i = .tcpClose id ∧ id.toNat = k.val ∧ s.slots[k] = some c ∧ t.slots[k] = none) ∨
    (∃ id cap c n, i = .tcpRecv id cap ∧ id.toNat = k.val ∧ s.slots[k] = some c ∧
      t.slots[k] = some { c with rxq := c.rxq.drop n })

/-- R23: no operation writes `LOCAL_MAC` or `LOCAL_IP`, none reads them, and none touches what the host will present. -/
def Obligations.LocalAddressesAreNeitherReadNorWritten : Prop :=
  ∀ (i : Instr) (s : State) (mac : Mac) (ip : Ipa) (l : List HostInput),
    ∃ t, exec i s = .next t ∧ t.localMac = s.localMac ∧ t.localIp = s.localIp ∧ t.inputs = s.inputs ∧
      exec i { s with localMac := mac, localIp := ip, inputs := l }
        = .next { t with localMac := mac, localIp := ip, inputs := l }

/-- R54: of a variable part, the bytes beyond the first N (1500, 1480, 1472 for the encoders; 0 for the accounting
operations, which use its length) never influence state or response. -/
def Obligations.UnreadBytesNeverMatter : Prop :=
  (∀ (dst src : Mac) (w : Half) (p q : Bytes) (s : State), p.take 1500 = q.take 1500 →
    exec (.ethEnc dst src w p) s = exec (.ethEnc dst src w q) s) ∧
  (∀ (src dst : Ipa) (proto : Byte) (p q : Bytes) (s : State), p.take 1480 = q.take 1480 →
    exec (.ipEnc src dst proto p) s = exec (.ipEnc src dst proto q) s) ∧
  (∀ (sport dport length checksum : Half) (p q : Bytes) (s : State), p.take 1472 = q.take 1472 →
    exec (.udpEnc sport dport length checksum p) s = exec (.udpEnc sport dport length checksum q) s) ∧
  (∀ (p q : Bytes) (s : State), p.take 1514 = q.take 1514 → p.length = q.length →
    exec (.ethDec p) s = exec (.ethDec q) s) ∧
  (∀ (p q : Bytes) (s : State), p.take 1500 = q.take 1500 → p.length = q.length →
    exec (.ipDec p) s = exec (.ipDec q) s) ∧
  (∀ (p q : Bytes) (s : State), p.take 1480 = q.take 1480 → p.length = q.length →
    exec (.udpDec p) s = exec (.udpDec q) s) ∧
  (∀ (p q : Bytes) (s : State), p.length = q.length →
    exec (.udpSend p) s = exec (.udpSend q) s ∧ exec (.udpRecv p) s = exec (.udpRecv q) s ∧
    ∀ id : ConnId, exec (.tcpSend id p) s = exec (.tcpSend id q) s)

/-- R91: the length of an OK response, status byte included, for each operation. -/
def Obligations.OkResponsesHaveTheirLength : Prop :=
  ∀ (i : Instr) (s t : State) (f : Bytes), exec i s = .next t → t.rsp = some (0x00 :: f) →
    match i.op with
    | .mgrInit | .mgrProcessEvents | .udpSend | .udpRecv | .tcpClose | .tcpSend => f.length + 1 = 1
    | .mgrGetStats => f.length + 1 = 133
    | .macEq | .macIsBcast | .macIsNull | .ipaEq | .ipaIsBcast | .ipaIsNull | .ethAccept | .ipDispatch => f.length + 1 = 2
    | .ethEnc => 15 ≤ f.length + 1 ∧ f.length + 1 ≤ 1515
    | .ethDec => 17 ≤ f.length + 1 ∧ f.length + 1 ≤ 1517
    | .ipEnc => 21 ≤ f.length + 1 ∧ f.length + 1 ≤ 1501
    | .ipDec => 12 ≤ f.length + 1 ∧ f.length + 1 ≤ 1492
    | .udpEnc => 9 ≤ f.length + 1 ∧ f.length + 1 ≤ 1481
    | .udpDec => 11 ≤ f.length + 1 ∧ f.length + 1 ≤ 1483
    | .tcpCreate => f.length + 1 = 5
    | .tcpRecv => f.length + 1 = 3 + (be16 f 0).toNat

/-- R56: under the invariant that every step keeps, no response is longer than 1517 bytes. -/
def Obligations.ResponsesFitTheResponseBuffer : Prop :=
  ∀ (s t : State) (req r : Bytes) (rest : List HostInput), ReachInv s → s.inputs = .request req :: rest →
    step s = .next t → t.rsp = some r → 1 ≤ r.length ∧ r.length ≤ 1517

/-- R190: the block cannot get stuck. From every state whose remaining requests are ones the transport delivers, every
number of steps ends in a next state. -/
def Obligations.SafeRunsNeverStop : Prop :=
  ∀ (n : Nat) (s : State), SafeInputs s → ∃ t, Host.Core.run Sys2Proof.core n s = .next t ∧ SafeInputs t
end

