-- ==== Sys2Proof/Laws/Bytes.lean ====
section
/-! SUPPORT. Byte strings: the lengths of the encodings, that reading a big-endian field back gives the value
written, that writing back the value read gives the bytes, and the laws of `memWrite`. -/

namespace Sys2Proof

@[simp] theorem Mac.bytes_length (a : Mac) : a.bytes.length = 6 := rfl
@[simp] theorem Ipa.bytes_length (a : Ipa) : a.bytes.length = 4 := rfl
@[simp] theorem enc16_length (v : Half) : (enc16 v).length = 2 := rfl
@[simp] theorem enc32_length (v : BitVec 32) : (enc32 v).length = 4 := rfl
@[simp] theorem enc64_length (v : BitVec 64) : (enc64 v).length = 8 := rfl

@[simp] theorem byteAt_cons_zero (b : Byte) (s : Bytes) : byteAt (b :: s) 0 = b := rfl
@[simp] theorem byteAt_cons_succ (b : Byte) (s : Bytes) (o : Nat) : byteAt (b :: s) (o + 1) = byteAt s o := rfl

theorem byteAt_eq_getElem (s : Bytes) (o : Nat) (h : o < s.length) : byteAt s o = s[o] := by
  simp [byteAt, h]

theorem byteAt_append_right (p s : Bytes) (o : Nat) : byteAt (p ++ s) (p.length + o) = byteAt s o := by
  unfold byteAt
  rw [List.getD_append_right _ _ _ _ (by omega), Nat.add_sub_cancel_left]

theorem be16_append_right (p s : Bytes) (o : Nat) : be16 (p ++ s) (p.length + o) = be16 s o := by
  simp only [be16, Nat.add_assoc, byteAt_append_right]

theorem be32_append_right (p s : Bytes) (o : Nat) : be32 (p ++ s) (p.length + o) = be32 s o := by
  simp only [be32, Nat.add_assoc, be16_append_right]

theorem be64_append_right (p s : Bytes) (o : Nat) : be64 (p ++ s) (p.length + o) = be64 s o := by
  simp only [be64, Nat.add_assoc, be32_append_right]

/-- R8: `be16(s, o) = s[o] * 256 + s[o+1]`. -/
theorem be16_toNat (s : Bytes) (o : Nat) :
    (be16 s o).toNat = (byteAt s o).toNat * 256 + (byteAt s (o + 1)).toNat := by
  have h := (byteAt s (o + 1)).isLt
  simp only [be16, BitVec.toNat_append]
  rw [Nat.shiftLeft_eq, Nat.mul_comm, ← Nat.two_pow_add_eq_or_of_lt h]

theorem append_extract (n m : Nat) (v : BitVec (n + m)) : v.extractLsb' m n ++ v.extractLsb' 0 m = v := by
  apply BitVec.eq_of_getLsbD_eq
  intro i hi
  simp only [BitVec.getLsbD_append, BitVec.getLsbD_extractLsb']
  by_cases h : i < m
  · simp [h]
  · have h1 : i - m < n := by omega
    have h2 : m + (i - m) = i := by omega
    simp [h, h1, h2]

@[simp] theorem be16_enc16 (v : Half) (s : Bytes) : be16 (enc16 v ++ s) 0 = v :=
  append_extract 8 8 v

@[simp] theorem be32_enc32 (v : BitVec 32) (s : Bytes) : be32 (enc32 v ++ s) 0 = v := by
  have h1 : be32 (enc32 v ++ s) 0
      = be16 (enc16 (v.extractLsb' 16 16) ++ (enc16 (v.extractLsb' 0 16) ++ s)) 0
        ++ be16 (enc16 (v.extractLsb' 0 16) ++ s) 0 := rfl
  rw [h1, be16_enc16, be16_enc16]
  exact append_extract 16 16 v

@[simp] theorem be64_enc64 (v : BitVec 64) (s : Bytes) : be64 (enc64 v ++ s) 0 = v := by
  have h1 : be64 (enc64 v ++ s) 0
      = be32 (enc32 (v.extractLsb' 32 32) ++ (enc32 (v.extractLsb' 0 32) ++ s)) 0
        ++ be32 (enc32 (v.extractLsb' 0 32) ++ s) 0 := rfl
  rw [h1, be32_enc32, be32_enc32]
  exact append_extract 32 32 v

theorem extract_append_hi (n m : Nat) (x : BitVec n) (y : BitVec m) : (x ++ y).extractLsb' m n = x := by
  apply BitVec.eq_of_getLsbD_eq
  intro i hi
  have h : ¬ m + i < m := by omega
  simp only [BitVec.getLsbD_extractLsb', BitVec.getLsbD_append]
  simp [hi]

theorem extract_append_lo (n m : Nat) (x : BitVec n) (y : BitVec m) : (x ++ y).extractLsb' 0 m = y := by
  apply BitVec.eq_of_getLsbD_eq
  intro i hi
  simp only [BitVec.getLsbD_extractLsb', BitVec.getLsbD_append]
  simp [hi]

/-- Writing back the field read gives its two bytes. -/
@[simp] theorem enc16_be16 (s : Bytes) (o : Nat) : enc16 (be16 s o) = [byteAt s o, byteAt s (o + 1)] := by
  have h1 := extract_append_hi 8 8 (byteAt s o) (byteAt s (o + 1))
  have h2 := extract_append_lo 8 8 (byteAt s o) (byteAt s (o + 1))
  simp only [enc16, be16]
  exact congrArg₂ (fun x y => [x, y]) h1 h2

/-- Writing back the field read gives its four bytes. -/
@[simp] theorem enc32_be32 (s : Bytes) (o : Nat) :
    enc32 (be32 s o) = [byteAt s o, byteAt s (o + 1), byteAt s (o + 2), byteAt s (o + 3)] := by
  have h1 := extract_append_hi 16 16 (be16 s o) (be16 s (o + 2))
  have h2 := extract_append_lo 16 16 (be16 s o) (be16 s (o + 2))
  have h : enc32 (be32 s o) = enc16 (be16 s o) ++ enc16 (be16 s (o + 2)) :=
    congrArg₂ (fun x y => enc16 x ++ enc16 y) h1 h2
  rw [h, enc16_be16, enc16_be16]
  rfl

/-! ### Reading past what comes first -/

@[simp] theorem be16_cons_succ (b : Byte) (s : Bytes) (o : Nat) : be16 (b :: s) (o + 1) = be16 s o := rfl
@[simp] theorem be32_cons_succ (b : Byte) (s : Bytes) (o : Nat) : be32 (b :: s) (o + 1) = be32 s o := rfl
@[simp] theorem be16_after_enc16 (v : Half) (s : Bytes) (o : Nat) : be16 (enc16 v ++ s) (o + 2) = be16 s o := rfl
@[simp] theorem be16_after_enc32 (v : BitVec 32) (s : Bytes) (o : Nat) : be16 (enc32 v ++ s) (o + 4) = be16 s o := rfl
@[simp] theorem be16_after_mac (a : Mac) (s : Bytes) (o : Nat) : be16 (a.bytes ++ s) (o + 6) = be16 s o := rfl

theorem be16_enc16_self (v : Half) : be16 (enc16 v) 0 = v := by simpa using be16_enc16 v []
theorem be32_enc32_self (v : BitVec 32) : be32 (enc32 v) 0 = v := by simpa using be32_enc32 v []

@[simp] theorem macAt_bytes (a : Mac) (s : Bytes) : macAt (a.bytes ++ s) 0 = a := rfl
@[simp] theorem ipaAt_bytes (a : Ipa) (s : Bytes) : ipaAt (a.bytes ++ s) 0 = a := rfl

@[simp] theorem macAt_bytes_eq (s : Bytes) (o : Nat) : (macAt s o).bytes =
    [byteAt s o, byteAt s (o + 1), byteAt s (o + 2), byteAt s (o + 3), byteAt s (o + 4), byteAt s (o + 5)] := rfl

@[simp] theorem ipaAt_bytes_eq (s : Bytes) (o : Nat) : (ipaAt s o).bytes =
    [byteAt s o, byteAt s (o + 1), byteAt s (o + 2), byteAt s (o + 3)] := rfl

theorem Mac.bytes_injective {a b : Mac} (h : a.bytes = b.bytes) : a = b := by
  cases a; cases b; simpa [Mac.bytes] using h

theorem Ipa.bytes_injective {a b : Ipa} (h : a.bytes = b.bytes) : a = b := by
  cases a; cases b; simpa [Ipa.bytes] using h

/-- A byte string is its first `n` bytes, each read by `byteAt`, and the rest. -/
theorem eq_bytes_append_drop (n : Nat) : ∀ s : Bytes, n ≤ s.length → s = (List.range n).map (byteAt s) ++ s.drop n := by
  induction n with
  | zero => simp
  | succ n ih =>
    intro s h
    cases s with
    | nil => simp at h
    | cons b tl =>
      have hrest := ih tl (by simpa using h)
      have hf : (byteAt (b :: tl) ∘ Nat.succ) = byteAt tl := by ext1 x; rfl
      rw [List.range_succ_eq_map]
      simp only [List.map_cons, List.map_map, List.cons_append, List.drop_succ_cons]
      rw [hf, ← hrest]; rfl

/-! ### Fields of `ID_W` and `CTR_W` bits

With the widths of R5 they are the 4- and 8-byte fields of R8, which is the form the laws and statements speak of. -/

@[simp] theorem Config.idLen_eq : Config.idLen = 4 := rfl
@[simp] theorem Config.ctrLen_eq : Config.ctrLen = 8 := rfl

theorem beNat_lt (s : Bytes) (o n : Nat) : beNat s o n < 256 ^ n := by
  induction n with
  | zero => simp [beNat]
  | succ n ih =>
    have h := (byteAt s (o + n)).isLt
    simp only [beNat, Nat.pow_succ]
    omega

@[simp] theorem encNat_length (n v : Nat) : (encNat n v).length = n := by
  induction n generalizing v with
  | zero => rfl
  | succ n ih => simp [encNat, ih]

/-- R8: `be32(s, o)` in full. -/
theorem be32_toNat (s : Bytes) (o : Nat) : (be32 s o).toNat = (be16 s o).toNat * 2 ^ 16 + (be16 s (o + 2)).toNat := by
  have h := (be16 s (o + 2)).isLt
  simp only [be32, BitVec.toNat_append]
  rw [Nat.shiftLeft_eq, Nat.mul_comm, ← Nat.two_pow_add_eq_or_of_lt h]

@[simp] theorem idAt_eq_be32 (s : Bytes) (o : Nat) : idAt s o = be32 s o := by
  have h := beNat_lt s o 4
  have e : o + 2 + 1 = o + 3 := rfl
  apply BitVec.eq_of_toNat_eq
  rw [be32_toNat, be16_toNat, be16_toNat, e]
  show beNat s o 4 % 2 ^ 32 = _
  rw [Nat.mod_eq_of_lt (by simpa using h)]
  simp only [beNat, Nat.add_zero]
  omega

theorem enc16_eq_encNat (v : Half) : enc16 v = encNat 2 v.toNat := by
  have h : ∀ k, v.extractLsb' k 8 = BitVec.ofNat 8 (v.toNat / 2 ^ k) := fun k => by
    apply BitVec.eq_of_toNat_eq; simp [Nat.shiftRight_eq_div_pow]
  simp [enc16, encNat, h]

/-- Encoding in two halves. -/
theorem encNat_add (n m v : Nat) : encNat (n + m) v = encNat n (v / 256 ^ m) ++ encNat m v := by
  induction m generalizing v with
  | zero => simp [encNat]
  | succ m ih =>
    rw [← Nat.add_assoc, encNat, ih, Nat.div_div_eq_div_mul, ← Nat.pow_succ']
    simp [encNat]

theorem encNat_mod (n v : Nat) : encNat n (v % 256 ^ n) = encNat n v := by
  induction n generalizing v with
  | zero => rfl
  | succ n ih =>
    have h1 : v % 256 ^ (n + 1) / 256 = v / 256 % 256 ^ n := by rw [Nat.pow_succ', Nat.mod_mul_right_div_self]
    have h2 : v % 256 ^ (n + 1) % 256 = v % 256 := Nat.mod_mod_of_dvd _ (Dvd.intro_left _ rfl)
    simp only [encNat, h1, ih]
    congr 2
    exact BitVec.eq_of_toNat_eq h2

theorem enc32_eq_encNat (v : BitVec 32) : enc32 v = encNat 4 v.toNat := by
  rw [enc32, enc16_eq_encNat, enc16_eq_encNat, encNat_add 2 2]
  congr 1
  · rw [← encNat_mod 2 (v.toNat / _)]; simp [Nat.shiftRight_eq_div_pow]
  · rw [← encNat_mod 2 v.toNat]; simp

theorem enc64_eq_encNat (v : BitVec 64) : enc64 v = encNat 8 v.toNat := by
  rw [enc64, enc32_eq_encNat, enc32_eq_encNat, encNat_add 4 4]
  congr 1
  · rw [← encNat_mod 4 (v.toNat / _)]; simp [Nat.shiftRight_eq_div_pow]
  · rw [← encNat_mod 4 v.toNat]; simp

@[simp] theorem encId_eq_enc32 (id : ConnId) : encId id = enc32 id := (enc32_eq_encNat id).symm
@[simp] theorem encCtr_eq_enc64 (c : Ctr) : encCtr c = enc64 c := (enc64_eq_encNat c).symm

/-! ### `memRead` and `memWrite` -/

/-- A substring, byte by byte. -/
theorem slice_eq_bytes (s : Bytes) (o n : Nat) (h : o + n ≤ s.length) :
    slice s o n = (List.range n).map (fun k => byteAt s (o + k)) := by
  apply List.ext_getElem
  · simp [slice]; omega
  · intro k h1 h2
    have hk : k < n := by simpa using h2
    simp [slice, byteAt_eq_getElem s (o + k) (by omega)]

theorem take_eq_bytes (s : Bytes) (n : Nat) (h : n ≤ s.length) : s.take n = (List.range n).map (byteAt s) := by
  simpa [slice] using slice_eq_bytes s 0 n (by omega)

theorem slice_length (s : Bytes) (a n : Nat) (h : a + n ≤ s.length) : (slice s a n).length = n := by
  simp [slice]; omega

theorem memWrite_length (s : Bytes) (a : Nat) (v : Bytes) (h : a + v.length ≤ s.length) :
    (memWrite s a v).length = s.length := by
  simp [memWrite]; omega

/-- A read of what was written gives it back. -/
theorem memRead_memWrite_same (s : Bytes) (a : Nat) (v : Bytes) (h : a + v.length ≤ s.length) :
    memRead (memWrite s a v) a v.length = some v := by
  have h1 : (s.take a).length = a := by simp; omega
  have h2 : (memWrite s a v).drop a = v ++ s.drop (a + v.length) := by
    unfold memWrite
    rw [List.append_assoc]
    exact List.drop_left' h1
  simp [memRead, memWrite_length s a v h, h, slice, h2]

/-- A write leaves every byte outside it alone. -/
theorem byteAt_memWrite_other (s : Bytes) (a : Nat) (v : Bytes) (o : Nat) (h : a + v.length ≤ s.length)
    (ho : o < a ∨ a + v.length ≤ o) : byteAt (memWrite s a v) o = byteAt s o := by
  have h1 : (s.take a).length = a := by simp; omega
  unfold byteAt memWrite
  rcases ho with ho | ho
  · simp only [List.getD, List.append_assoc]
    rw [List.getElem?_append_left (by omega), List.getElem?_take_of_lt ho]
  · simp only [List.getD]
    rw [List.getElem?_append_right (by simp; omega), List.getElem?_drop]
    congr 2
    simp; omega

end Sys2Proof
end

