-- ==== Sys2Proof/Laws/Decode.lean ====
section
/-! SUPPORT. The decoder's inversion law, and the opcode lookup. -/

namespace Sys2Proof

@[simp] theorem lookupOpcode_opcode (o : Op) : lookupOpcode o.opcode = some o := by cases o <;> rfl

theorem opcode_of_lookup {b : Byte} {o : Op} (h : lookupOpcode b = some o) : o.opcode = b := by
  simpa using List.find?_some h

@[simp] theorem assemble_op (o : Op) (req : Bytes) : (assemble o req).op = o := by cases o <;> rfl

/-- What the decoder answers on a message of an operation's opcode within the transport's limit. -/
theorem decode_opcode_cons (o : Op) (tl : Bytes) (hl : (o.opcode :: tl).length ≤ Config.reqMaxLen) :
    decode (o.opcode :: tl) = if o.format.lengthOk (o.opcode :: tl).length
      then .instr (assemble o (o.opcode :: tl)) else .rejected (.badLength o) := by
  unfold decode
  simp only [Nat.not_lt.2 hl, if_false, lookupOpcode_opcode]

/-- The inversion law: all that an accepted message must be. -/
theorem decode_eq_instr {req : Bytes} {i : Instr} (h : decode req = .instr i) :
    ∃ tl o, req = o.opcode :: tl ∧ req.length ≤ Config.reqMaxLen ∧ o.format.lengthOk req.length = true ∧
      i = assemble o req := by
  unfold decode at h
  split at h
  · simp at h
  · rename_i b tl
    split at h
    · simp at h
    · rename_i hl
      split at h
      · simp at h
      · rename_i o ho
        split at h
        · rename_i hk
          exact ⟨tl, o, by rw [opcode_of_lookup ho], Nat.not_lt.1 hl, hk, by simpa using h.symm⟩
        · simp at h

end Sys2Proof
end

