-- ==== Sys2Proof/Laws/State.lean ====
section
/-! SUPPORT. One lemma per field per state update: what it writes, and that it leaves every other field. -/

namespace Sys2Proof.Machine.State

variable (s : State)

/-! ### `respond` -/

@[simp] theorem respond_ready (r : Response) : (s.respond r).ready = s.ready := rfl
@[simp] theorem respond_localMac (r : Response) : (s.respond r).localMac = s.localMac := rfl
@[simp] theorem respond_localIp (r : Response) : (s.respond r).localIp = s.localIp := rfl
@[simp] theorem respond_slots (r : Response) : (s.respond r).slots = s.slots := rfl
@[simp] theorem respond_ctr (r : Response) : (s.respond r).ctr = s.ctr := rfl
@[simp] theorem respond_inputs (r : Response) : (s.respond r).inputs = s.inputs := rfl
@[simp] theorem respond_rsp (r : Response) : (s.respond r).rsp = some r.bytes := rfl

/-! ### `setReady` -/

@[simp] theorem setReady_ready : (s.setReady).ready = true := rfl
@[simp] theorem setReady_localMac : (s.setReady).localMac = s.localMac := rfl
@[simp] theorem setReady_localIp : (s.setReady).localIp = s.localIp := rfl
@[simp] theorem setReady_slots : (s.setReady).slots = s.slots := rfl
@[simp] theorem setReady_ctr : (s.setReady).ctr = s.ctr := rfl
@[simp] theorem setReady_inputs : (s.setReady).inputs = s.inputs := rfl
@[simp] theorem setReady_rsp : (s.setReady).rsp = s.rsp := rfl

/-! ### `withInputs` -/

@[simp] theorem withInputs_ready (l : List HostInput) : (s.withInputs l).ready = s.ready := rfl
@[simp] theorem withInputs_localMac (l : List HostInput) : (s.withInputs l).localMac = s.localMac := rfl
@[simp] theorem withInputs_localIp (l : List HostInput) : (s.withInputs l).localIp = s.localIp := rfl
@[simp] theorem withInputs_slots (l : List HostInput) : (s.withInputs l).slots = s.slots := rfl
@[simp] theorem withInputs_ctr (l : List HostInput) : (s.withInputs l).ctr = s.ctr := rfl
@[simp] theorem withInputs_inputs (l : List HostInput) : (s.withInputs l).inputs = l := rfl
@[simp] theorem withInputs_rsp (l : List HostInput) : (s.withInputs l).rsp = s.rsp := rfl

/-! ### `setSlot` -/

@[simp] theorem setSlot_ready (k : Fin Config.tcpSlots) (v : Slot) : (s.setSlot k v).ready = s.ready := rfl
@[simp] theorem setSlot_localMac (k : Fin Config.tcpSlots) (v : Slot) : (s.setSlot k v).localMac = s.localMac := rfl
@[simp] theorem setSlot_localIp (k : Fin Config.tcpSlots) (v : Slot) : (s.setSlot k v).localIp = s.localIp := rfl
@[simp] theorem setSlot_slots (k : Fin Config.tcpSlots) (v : Slot) : (s.setSlot k v).slots = s.slots.set k v := rfl
@[simp] theorem setSlot_ctr (k : Fin Config.tcpSlots) (v : Slot) : (s.setSlot k v).ctr = s.ctr := rfl
@[simp] theorem setSlot_inputs (k : Fin Config.tcpSlots) (v : Slot) : (s.setSlot k v).inputs = s.inputs := rfl
@[simp] theorem setSlot_rsp (k : Fin Config.tcpSlots) (v : Slot) : (s.setSlot k v).rsp = s.rsp := rfl

/-! ### `countTcpSent` -/

@[simp] theorem countTcpSent_ready (n : Nat) : (s.countTcpSent n).ready = s.ready := rfl
@[simp] theorem countTcpSent_localMac (n : Nat) : (s.countTcpSent n).localMac = s.localMac := rfl
@[simp] theorem countTcpSent_localIp (n : Nat) : (s.countTcpSent n).localIp = s.localIp := rfl
@[simp] theorem countTcpSent_slots (n : Nat) : (s.countTcpSent n).slots = s.slots := rfl
@[simp] theorem countTcpSent_ctr (n : Nat) : (s.countTcpSent n).ctr = { s.ctr with tcp := s.ctr.tcp.sent n } := rfl
@[simp] theorem countTcpSent_inputs (n : Nat) : (s.countTcpSent n).inputs = s.inputs := rfl
@[simp] theorem countTcpSent_rsp (n : Nat) : (s.countTcpSent n).rsp = s.rsp := rfl

/-! ### `countTcpReceived` -/

@[simp] theorem countTcpReceived_ready (n : Nat) : (s.countTcpReceived n).ready = s.ready := rfl
@[simp] theorem countTcpReceived_localMac (n : Nat) : (s.countTcpReceived n).localMac = s.localMac := rfl
@[simp] theorem countTcpReceived_localIp (n : Nat) : (s.countTcpReceived n).localIp = s.localIp := rfl
@[simp] theorem countTcpReceived_slots (n : Nat) : (s.countTcpReceived n).slots = s.slots := rfl
@[simp] theorem countTcpReceived_ctr (n : Nat) : (s.countTcpReceived n).ctr = { s.ctr with tcp := s.ctr.tcp.received n } := rfl
@[simp] theorem countTcpReceived_inputs (n : Nat) : (s.countTcpReceived n).inputs = s.inputs := rfl
@[simp] theorem countTcpReceived_rsp (n : Nat) : (s.countTcpReceived n).rsp = s.rsp := rfl

/-! ### `countUdpSent` -/

@[simp] theorem countUdpSent_ready (n : Nat) : (s.countUdpSent n).ready = s.ready := rfl
@[simp] theorem countUdpSent_localMac (n : Nat) : (s.countUdpSent n).localMac = s.localMac := rfl
@[simp] theorem countUdpSent_localIp (n : Nat) : (s.countUdpSent n).localIp = s.localIp := rfl
@[simp] theorem countUdpSent_slots (n : Nat) : (s.countUdpSent n).slots = s.slots := rfl
@[simp] theorem countUdpSent_ctr (n : Nat) : (s.countUdpSent n).ctr = { s.ctr with udp := s.ctr.udp.sent n } := rfl
@[simp] theorem countUdpSent_inputs (n : Nat) : (s.countUdpSent n).inputs = s.inputs := rfl
@[simp] theorem countUdpSent_rsp (n : Nat) : (s.countUdpSent n).rsp = s.rsp := rfl

/-! ### `countUdpReceived` -/

@[simp] theorem countUdpReceived_ready (n : Nat) : (s.countUdpReceived n).ready = s.ready := rfl
@[simp] theorem countUdpReceived_localMac (n : Nat) : (s.countUdpReceived n).localMac = s.localMac := rfl
@[simp] theorem countUdpReceived_localIp (n : Nat) : (s.countUdpReceived n).localIp = s.localIp := rfl
@[simp] theorem countUdpReceived_slots (n : Nat) : (s.countUdpReceived n).slots = s.slots := rfl
@[simp] theorem countUdpReceived_ctr (n : Nat) : (s.countUdpReceived n).ctr = { s.ctr with udp := s.ctr.udp.received n } := rfl
@[simp] theorem countUdpReceived_inputs (n : Nat) : (s.countUdpReceived n).inputs = s.inputs := rfl
@[simp] theorem countUdpReceived_rsp (n : Nat) : (s.countUdpReceived n).rsp = s.rsp := rfl

/-! ### `applyReset` -/

@[simp] theorem applyReset_ready : (s.applyReset).ready = false := rfl
@[simp] theorem applyReset_localMac : (s.applyReset).localMac = s.localMac := rfl
@[simp] theorem applyReset_localIp : (s.applyReset).localIp = s.localIp := rfl
@[simp] theorem applyReset_slots : (s.applyReset).slots = Vector.replicate Config.tcpSlots none := rfl
@[simp] theorem applyReset_ctr : (s.applyReset).ctr = .zero := rfl
@[simp] theorem applyReset_inputs : (s.applyReset).inputs = s.inputs := rfl
@[simp] theorem applyReset_rsp : (s.applyReset).rsp = none := rfl

end Sys2Proof.Machine.State
end

