-- ==== Sys2Proof/Laws/Ops.lean ====
section
/-! SUPPORT. One law per shared operation: what the free-slot scan finds, which connection an id names, how the
active count moves, what the ready gate does, what a counter addition gives. -/

namespace Sys2Proof.Machine

/-! ### The ready gate and responses -/

theorem whenReady_of_ready {s : State} (h : s.ready = true) (closed : Response) (run : State → Result) :
    whenReady closed run s = run s := by simp [whenReady, h]

theorem whenReady_of_unready {s : State} (h : s.ready = false) (closed : Response) (run : State → Result) :
    whenReady closed run s = answer closed s := by simp [whenReady, h]

@[simp] theorem Response.bytes_ok (f : Bytes) : (Response.ok f).bytes = 0x00 :: f := rfl
@[simp] theorem Response.bytes_fail : Response.fail.bytes = [0x01] := rfl
@[simp] theorem Response.bytes_badRequest : Response.badRequest.bytes = [0xFF] := rfl

/-! ### The connection table -/

theorem find_finRange_eq_some {n : Nat} (p : Fin n → Bool) (k : Fin n) :
    (List.finRange n).find? p = some k ↔ p k = true ∧ ∀ j < k, p j = false := by
  rw [List.find?_eq_some_iff_getElem]
  constructor
  · rintro ⟨hp, i, hi, hk, hlt⟩
    have hik : i = k.val := by rw [← hk]; simp
    refine ⟨hp, fun j hj => ?_⟩
    have := hlt j.val (by omega)
    simpa using this
  · rintro ⟨hp, hlt⟩
    refine ⟨hp, k.val, by simp, by simp, fun j hj => ?_⟩
    have := hlt ⟨j, by omega⟩ (by simpa [Fin.lt_def] using hj)
    simpa using this

/-- R150: the scan finds the smallest Empty slot. -/
theorem State.firstFree_eq_some {s : State} {k : Fin Config.tcpSlots} :
    s.firstFree = some k ↔ s.slots[k] = none ∧ ∀ j < k, s.slots[j] ≠ none := by
  unfold State.firstFree
  rw [find_finRange_eq_some]
  simp [Option.isNone_iff_eq_none, ← Option.isSome_iff_ne_none]

/-- R150: the scan finds nothing exactly when the table is full. -/
theorem State.firstFree_eq_none {s : State} :
    s.firstFree = none ↔ ∀ k : Fin Config.tcpSlots, s.slots[k] ≠ none := by
  simp [State.firstFree, List.find?_eq_none, Option.isNone_iff_eq_none]

/-- R152 to R156: the live connection an id names. -/
theorem State.liveConn_eq_some {s : State} {id : ConnId} {k : Fin Config.tcpSlots} {c : Conn} :
    s.liveConn id = some (k, c) ↔ id.toNat = k.val ∧ s.slots[k] = some c := by
  unfold State.liveConn
  split
  · rename_i h
    simp only [Option.map_eq_some_iff, Prod.mk.injEq, Fin.ext_iff]
    constructor
    · rintro ⟨c', hc, hk, rfl⟩
      exact ⟨hk, by simpa [← hk] using hc⟩
    · rintro ⟨hk, hc⟩
      exact ⟨c, by simpa [hk] using hc, hk, rfl⟩
  · rename_i h
    simp only [false_iff, reduceCtorEq]
    rintro ⟨hk, -⟩
    exact h (hk ▸ k.isLt)

/-- R153: an id names no live connection exactly when it is 64 or more or its slot is Empty. -/
theorem State.liveConn_eq_none {s : State} {id : ConnId} :
    s.liveConn id = none ↔ ∀ k : Fin Config.tcpSlots, id.toNat = k.val → s.slots[k] = none := by
  unfold State.liveConn
  split
  · rename_i h
    simp only [Option.map_eq_none_iff]
    constructor
    · intro hn k hk
      simpa [hk] using hn
    · intro hn
      exact hn ⟨_, h⟩ rfl
  · rename_i h
    simp only [true_iff]
    intro k hk
    exact absurd (hk ▸ k.isLt) h

theorem State.setSlot_same (s : State) (k : Fin Config.tcpSlots) (v : Slot) : (s.setSlot k v).slots[k] = v := by
  simp [State.setSlot]

theorem State.setSlot_other (s : State) {k j : Fin Config.tcpSlots} (v : Slot) (h : j ≠ k) :
    (s.setSlot k v).slots[j] = s.slots[j] := by
  have : k.val ≠ j.val := fun e => h (Fin.ext e.symm)
  simp [State.setSlot, this]

/-- R30: the count is a value in 0..64. -/
theorem State.active_le (s : State) : s.active ≤ 64 := by
  have h : s.slots.toList.length = 64 := by simp
  exact h ▸ List.countP_le_length

/-- How the count moves when one slot is replaced. -/
theorem State.active_setSlot (s : State) (k : Fin Config.tcpSlots) (v : Slot) :
    (s.setSlot k v).active + (if (s.slots[k]).isSome then 1 else 0) = s.active + (if v.isSome then 1 else 0) := by
  have hk : k.val < s.slots.toList.length := by simp
  have hset : (s.setSlot k v).slots.toList = s.slots.toList.set k v := by simp [State.setSlot, Vector.toList_set]
  unfold State.active
  rw [hset, List.countP_set hk]
  have hget : s.slots.toList[k.val] = s.slots[k] := by simp
  have hle : (if (s.slots[k]).isSome then 1 else 0) ≤ List.countP Option.isSome s.slots.toList := by
    split
    · rename_i h
      refine List.countP_pos_iff.2 ⟨s.slots[k], ?_, h⟩
      rw [← hget]; exact List.getElem_mem hk
    · omega
  rw [hget]
  omega

/-! ### The counters -/

/-- R12: a counter addition is modulo 2^64. -/
theorem addCount_toNat (c : Ctr) (k : Nat) : (addCount c k).toNat = (c.toNat + k) % 2 ^ 64 := by
  simp [addCount, Config.ctrW]

@[simp] theorem addCount_zero (c : Ctr) : addCount c 0 = c := by simp [addCount]

end Sys2Proof.Machine
end

