-- ==== Sys2Proof/Laws/Exec.lean ====
section
/-! SUPPORT. What an operation can do to the state, said once: every operation ends with a response, after at
most one of eight changes. Invariants and frames are derived from this, not from the meanings. -/

namespace Sys2Proof.Machine

/-- The changes of state of the 23 operations, each with the operation that makes it and the condition under
which it is made. -/
inductive Effect (s : State) : Instr → State → Prop
  | unchanged (i : Instr) : Effect s i s
  | init : Effect s .mgrInit s.setReady
  | create (lport rport : Half) (k : Fin Config.tcpSlots) (hr : s.ready = true) (hk : s.firstFree = some k) :
      Effect s (.tcpCreate lport rport) (s.setSlot k (some ⟨lport, rport, []⟩))
  | close (id : ConnId) (k : Fin Config.tcpSlots) (c : Conn) (hr : s.ready = true)
      (hk : s.liveConn id = some (k, c)) : Effect s (.tcpClose id) (s.setSlot k none)
  | tcpSend (id : ConnId) (data : Bytes) (hr : s.ready = true) : Effect s (.tcpSend id data) (s.countTcpSent data.length)
  | tcpRecv (id : ConnId) (cap : Half) (k : Fin Config.tcpSlots) (c : Conn) (n : Nat) (hr : s.ready = true)
      (hk : s.liveConn id = some (k, c)) (hn : n = min c.rxq.length cap.toNat) (hpos : 0 < n) :
      Effect s (.tcpRecv id cap) ((s.setSlot k (some { c with rxq := c.rxq.drop n })).countTcpReceived n)
  | udpSend (bytes : Bytes) (hr : s.ready = true) : Effect s (.udpSend bytes) (s.countUdpSent bytes.length)
  | udpRecv (bytes : Bytes) (hr : s.ready = true) : Effect s (.udpRecv bytes) (s.countUdpReceived bytes.length)

/-- Putting back what a slot holds changes nothing. -/
theorem State.setSlot_self (s : State) (k : Fin Config.tcpSlots) : s.setSlot k s.slots[k] = s := by
  simp [State.setSlot]

/-- R156 on a live connection, by whether a byte moves. -/
theorem receiveFrom_eq (s : State) (k : Fin Config.tcpSlots) (c : Conn) (cap : Half) (hc : s.slots[k] = some c) :
    receiveFrom k c cap s =
      let n := min c.rxq.length cap.toNat
      answer (.ok (enc16 (BitVec.ofNat 16 n) ++ c.rxq.take n))
        (if 0 < n then (s.setSlot k (some { c with rxq := c.rxq.drop n })).countTcpReceived n else s) := by
  simp only [receiveFrom]
  by_cases h : 0 < min c.rxq.length cap.toNat
  · simp [h]
  · have h0 : min c.rxq.length cap.toNat = 0 := by omega
    have hs : s.setSlot k (some c) = s := by rw [← hc]; exact s.setSlot_self k
    simp [h0, hs]

/-- The inversion law: every operation answers a next state, which is an effect of `Effect` with a response that
is OK or FAIL; where it is FAIL, nothing changed. -/
theorem exec_effect (i : Instr) (s : State) :
    ∃ u r, Effect s i u ∧ exec i s = .next (u.respond r) ∧
      (r = .fail ∧ u = s ∨ ∃ f, r = .ok f) := by
  have same : ∀ f, exec i s = answer (.ok f) s → ∃ u r, Effect s i u ∧ exec i s = .next (u.respond r) ∧
      (r = .fail ∧ u = s ∨ ∃ f, r = .ok f) :=
    fun f h => ⟨s, _, .unchanged i, h, .inr ⟨f, rfl⟩⟩
  have failed : exec i s = answer .fail s → ∃ u r, Effect s i u ∧ exec i s = .next (u.respond r) ∧
      (r = .fail ∧ u = s ∨ ∃ f, r = .ok f) :=
    fun h => ⟨s, _, .unchanged i, h, .inl ⟨rfl, rfl⟩⟩
  cases i with
  | mgrInit => exact ⟨_, _, .init, rfl, .inr ⟨_, rfl⟩⟩
  | mgrProcessEvents => exact same _ rfl
  | mgrGetStats =>
    cases hr : s.ready with
    | true => exact same _ (whenReady_of_ready hr _ _)
    | false => exact same _ (whenReady_of_unready hr _ _)
  | macEq a b => exact same _ rfl
  | macIsBcast a => exact same _ rfl
  | macIsNull a => exact same _ rfl
  | ipaEq a b => exact same _ rfl
  | ipaIsBcast a => exact same _ rfl
  | ipaIsNull a => exact same _ rfl
  | ethEnc dst src ethertype payload => exact same _ rfl
  | ethDec bytes =>
    cases hd : ethDecode bytes with
    | none => exact failed (by simp [exec, execEthDec, hd])
    | some f => exact same _ (by simp only [exec, execEthDec, hd]; rfl)
  | ethAccept dst loc => exact same _ rfl
  | ipEnc src dst proto payload => exact same _ rfl
  | ipDec bytes =>
    cases hd : ipDecode bytes with
    | none => exact failed (by simp [exec, execIpDec, hd])
    | some p => exact same _ (by simp only [exec, execIpDec, hd]; rfl)
  | ipDispatch proto =>
    cases hd : ipDispatch proto with
    | none => exact failed (by simp [exec, execIpDispatch, hd])
    | some t => exact same _ (by simp only [exec, execIpDispatch, hd]; rfl)
  | udpEnc sport dport length checksum payload => exact same _ rfl
  | udpDec bytes =>
    cases hd : udpDecode bytes with
    | none => exact failed (by simp [exec, execUdpDec, hd])
    | some d => exact same _ (by simp only [exec, execUdpDec, hd]; rfl)
  | udpSend bytes =>
    cases hr : s.ready with
    | true => exact ⟨_, _, .udpSend bytes hr, by simp only [exec, execUdpSend, whenReady, hr, if_true]; rfl, .inr ⟨_, rfl⟩⟩
    | false => exact failed (by simp [exec, execUdpSend, whenReady, hr])
  | udpRecv bytes =>
    cases hr : s.ready with
    | true => exact ⟨_, _, .udpRecv bytes hr, by simp only [exec, execUdpRecv, whenReady, hr, if_true]; rfl, .inr ⟨_, rfl⟩⟩
    | false => exact failed (by simp [exec, execUdpRecv, whenReady, hr])
  | tcpCreate lport rport =>
    cases hr : s.ready with
    | false => exact failed (by simp [exec, execTcpCreate, whenReady, hr])
    | true =>
      cases hk : s.firstFree with
      | none => exact failed (by simp [exec, execTcpCreate, whenReady, hr, hk])
      | some k =>
        exact ⟨_, _, .create lport rport k hr hk,
          by simp only [exec, execTcpCreate, whenReady, hr, hk, if_true]; rfl, .inr ⟨_, rfl⟩⟩
  | tcpClose id =>
    cases hr : s.ready with
    | false => exact failed (by simp [exec, execTcpClose, whenReady, hr])
    | true =>
      cases hk : s.liveConn id with
      | none => exact failed (by simp [exec, execTcpClose, whenReady, hr, hk])
      | some kc =>
        exact ⟨_, _, .close id kc.1 kc.2 hr hk,
          by simp only [exec, execTcpClose, whenReady, hr, hk, if_true]; rfl, .inr ⟨_, rfl⟩⟩
  | tcpSend id data =>
    cases hr : s.ready with
    | false => exact failed (by simp [exec, execTcpSend, whenReady, hr])
    | true =>
      cases hk : s.liveConn id with
      | none => exact failed (by simp [exec, execTcpSend, whenReady, hr, hk])
      | some kc =>
        exact ⟨_, _, .tcpSend id data hr,
          by simp only [exec, execTcpSend, whenReady, hr, hk, if_true]; rfl, .inr ⟨_, rfl⟩⟩
  | tcpRecv id cap =>
    cases hr : s.ready with
    | false => exact same [0x00, 0x00] (by simp [exec, execTcpRecv, whenReady, hr])
    | true =>
      cases hk : s.liveConn id with
      | none => exact same [0x00, 0x00] (by simp [exec, execTcpRecv, whenReady, hr, hk])
      | some kc =>
        obtain ⟨k, c⟩ := kc
        have hrun : exec (.tcpRecv id cap) s = receiveFrom k c cap s := by
          simp only [exec, execTcpRecv, whenReady, hr, hk, if_true]
        rw [receiveFrom_eq s k c cap (State.liveConn_eq_some.1 hk).2] at hrun
        by_cases hpos : 0 < min c.rxq.length cap.toNat
        · simp only [hpos, if_true] at hrun
          exact ⟨_, _, .tcpRecv id cap k c _ hr hk rfl hpos, hrun, .inr ⟨_, rfl⟩⟩
        · simp only [hpos, if_false] at hrun
          exact same _ hrun

/-- A step on a request that decodes is the instruction's operation. -/
theorem step_of_decode {s : State} {req : Bytes} {rest : List HostInput} {i : Instr}
    (hs : s.inputs = .request req :: rest) (hd : decode req = .instr i) :
    step s = exec i (s.withInputs rest) := by
  simp [step, hs, hd]

/-- The inversion law of a step that answers a next state. -/
theorem step_cases {s t : State} (h : step s = .next t) :
    (s.inputs = [] ∧ t = s) ∨
    (∃ rest, s.inputs = .reset :: rest ∧ t = (s.withInputs rest).applyReset) ∨
    (∃ req rest i, s.inputs = .request req :: rest ∧ decode req = .instr i ∧
      exec i (s.withInputs rest) = .next t) ∨
    (∃ req rest why, s.inputs = .request req :: rest ∧ decode req = .rejected why ∧
      t = (s.withInputs rest).respond .badRequest) := by
  unfold step at h
  split at h
  · rename_i hi
    exact .inl ⟨hi, by simpa [idle] using h.symm⟩
  · rename_i rest hi
    exact .inr (.inl ⟨rest, hi, by simpa using h.symm⟩)
  · rename_i req rest hi
    split at h
    · rename_i i hd
      exact .inr (.inr (.inl ⟨req, rest, i, hi, hd, h⟩))
    · rename_i why hd
      refine .inr (.inr (.inr ⟨req, rest, why, hi, hd, ?_⟩))
      cases why <;> simp [answerRejected, answer] at h <;> exact h.symm

end Sys2Proof.Machine
end

