-- ==== Sys2Proof/Laws/PerInstr.lean ====
section
/-! SUPPORT. Facts about every instruction as syntax, one lemma per constructor: the shape of its request
message against its format (30_encoding.md R83, R85). -/

namespace Sys2Proof.Laws.EncodeShape

/-- The request of an instruction begins with its opcode, and its length is the format's fixed part plus the
length of its variable part, which is empty for a format without one. -/
def Statement (i : Instr) : Prop :=
  (encode i).head? = some i.op.opcode ∧
  (encode i).length = i.op.format.fixedLen + i.variablePart.length ∧
  (i.op.format.hasVariable = false → i.variablePart = [])

theorem mgrInit : Statement .mgrInit := by
  simp +arith [Statement, encode, Instr.op, Op.format, Format.fixedLen, Format.hasVariable, Instr.variablePart,
    Instr.operandBytes]

theorem mgrProcessEvents : Statement .mgrProcessEvents := by
  simp +arith [Statement, encode, Instr.op, Op.format, Format.fixedLen, Format.hasVariable, Instr.variablePart,
    Instr.operandBytes]

theorem mgrGetStats : Statement .mgrGetStats := by
  simp +arith [Statement, encode, Instr.op, Op.format, Format.fixedLen, Format.hasVariable, Instr.variablePart,
    Instr.operandBytes]

theorem macEq (a : Mac) (b : Mac) : Statement (.macEq a b) := by
  simp +arith [Statement, encode, Instr.op, Op.format, Format.fixedLen, Format.hasVariable, Instr.variablePart,
    Instr.operandBytes]

theorem macIsBcast (a : Mac) : Statement (.macIsBcast a) := by
  simp +arith [Statement, encode, Instr.op, Op.format, Format.fixedLen, Format.hasVariable, Instr.variablePart,
    Instr.operandBytes]

theorem macIsNull (a : Mac) : Statement (.macIsNull a) := by
  simp +arith [Statement, encode, Instr.op, Op.format, Format.fixedLen, Format.hasVariable, Instr.variablePart,
    Instr.operandBytes]

theorem ipaEq (a : Ipa) (b : Ipa) : Statement (.ipaEq a b) := by
  simp +arith [Statement, encode, Instr.op, Op.format, Format.fixedLen, Format.hasVariable, Instr.variablePart,
    Instr.operandBytes]

theorem ipaIsBcast (a : Ipa) : Statement (.ipaIsBcast a) := by
  simp +arith [Statement, encode, Instr.op, Op.format, Format.fixedLen, Format.hasVariable, Instr.variablePart,
    Instr.operandBytes]

theorem ipaIsNull (a : Ipa) : Statement (.ipaIsNull a) := by
  simp +arith [Statement, encode, Instr.op, Op.format, Format.fixedLen, Format.hasVariable, Instr.variablePart,
    Instr.operandBytes]

theorem ethEnc (dst : Mac) (src : Mac) (ethertype : Half) (payload : Bytes) : Statement (.ethEnc dst src ethertype payload) := by
  simp +arith [Statement, encode, Instr.op, Op.format, Format.fixedLen, Format.hasVariable, Instr.variablePart,
    Instr.operandBytes]

theorem ethDec (bytes : Bytes) : Statement (.ethDec bytes) := by
  simp +arith [Statement, encode, Instr.op, Op.format, Format.fixedLen, Format.hasVariable, Instr.variablePart,
    Instr.operandBytes]

theorem ethAccept (dst : Mac) (loc : Mac) : Statement (.ethAccept dst loc) := by
  simp +arith [Statement, encode, Instr.op, Op.format, Format.fixedLen, Format.hasVariable, Instr.variablePart,
    Instr.operandBytes]

theorem ipEnc (src : Ipa) (dst : Ipa) (proto : Byte) (payload : Bytes) : Statement (.ipEnc src dst proto payload) := by
  simp +arith [Statement, encode, Instr.op, Op.format, Format.fixedLen, Format.hasVariable, Instr.variablePart,
    Instr.operandBytes]

theorem ipDec (bytes : Bytes) : Statement (.ipDec bytes) := by
  simp +arith [Statement, encode, Instr.op, Op.format, Format.fixedLen, Format.hasVariable, Instr.variablePart,
    Instr.operandBytes]

theorem ipDispatch (proto : Byte) : Statement (.ipDispatch proto) := by
  simp +arith [Statement, encode, Instr.op, Op.format, Format.fixedLen, Format.hasVariable, Instr.variablePart,
    Instr.operandBytes]

theorem udpEnc (sport : Half) (dport : Half) (length : Half) (checksum : Half) (payload : Bytes) : Statement (.udpEnc sport dport length checksum payload) := by
  simp +arith [Statement, encode, Instr.op, Op.format, Format.fixedLen, Format.hasVariable, Instr.variablePart,
    Instr.operandBytes]

theorem udpDec (bytes : Bytes) : Statement (.udpDec bytes) := by
  simp +arith [Statement, encode, Instr.op, Op.format, Format.fixedLen, Format.hasVariable, Instr.variablePart,
    Instr.operandBytes]

theorem udpSend (bytes : Bytes) : Statement (.udpSend bytes) := by
  simp +arith [Statement, encode, Instr.op, Op.format, Format.fixedLen, Format.hasVariable, Instr.variablePart,
    Instr.operandBytes]

theorem udpRecv (bytes : Bytes) : Statement (.udpRecv bytes) := by
  simp +arith [Statement, encode, Instr.op, Op.format, Format.fixedLen, Format.hasVariable, Instr.variablePart,
    Instr.operandBytes]

theorem tcpCreate (lport : Half) (rport : Half) : Statement (.tcpCreate lport rport) := by
  simp +arith [Statement, encode, Instr.op, Op.format, Format.fixedLen, Format.hasVariable, Instr.variablePart,
    Instr.operandBytes]

theorem tcpClose (id : ConnId) : Statement (.tcpClose id) := by
  simp +arith [Statement, encode, Instr.op, Op.format, Format.fixedLen, Format.hasVariable, Instr.variablePart,
    Instr.operandBytes]

theorem tcpSend (id : ConnId) (data : Bytes) : Statement (.tcpSend id data) := by
  simp +arith [Statement, encode, Instr.op, Op.format, Format.fixedLen, Format.hasVariable, Instr.variablePart,
    Instr.operandBytes]

theorem tcpRecv (id : ConnId) (cap : Half) : Statement (.tcpRecv id cap) := by
  simp +arith [Statement, encode, Instr.op, Op.format, Format.fixedLen, Format.hasVariable, Instr.variablePart,
    Instr.operandBytes]

theorem all (i : Instr) : Statement i := by
  cases i with
  | mgrInit => exact mgrInit
  | mgrProcessEvents => exact mgrProcessEvents
  | mgrGetStats => exact mgrGetStats
  | macEq a b => exact macEq a b
  | macIsBcast a => exact macIsBcast a
  | macIsNull a => exact macIsNull a
  | ipaEq a b => exact ipaEq a b
  | ipaIsBcast a => exact ipaIsBcast a
  | ipaIsNull a => exact ipaIsNull a
  | ethEnc dst src ethertype payload => exact ethEnc dst src ethertype payload
  | ethDec bytes => exact ethDec bytes
  | ethAccept dst loc => exact ethAccept dst loc
  | ipEnc src dst proto payload => exact ipEnc src dst proto payload
  | ipDec bytes => exact ipDec bytes
  | ipDispatch proto => exact ipDispatch proto
  | udpEnc sport dport length checksum payload => exact udpEnc sport dport length checksum payload
  | udpDec bytes => exact udpDec bytes
  | udpSend bytes => exact udpSend bytes
  | udpRecv bytes => exact udpRecv bytes
  | tcpCreate lport rport => exact tcpCreate lport rport
  | tcpClose id => exact tcpClose id
  | tcpSend id data => exact tcpSend id data
  | tcpRecv id cap => exact tcpRecv id cap

/-- An instruction is well-formed exactly when its request fits the transport. -/
theorem wellFormed_iff_length (i : Instr) : i.wellFormed = true ↔ (encode i).length ≤ Config.reqMaxLen := by
  rw [(all i).2.1, Instr.wellFormed, decide_eq_true_iff]

end Sys2Proof.Laws.EncodeShape
end

