-- ==== Sys2Proof/Laws/Run.lean ====
section
/-! SUPPORT. Runs of the machine one step at a time. -/

namespace Sys2Proof.Machine

/-- One step of a run of any machine. -/
theorem run_succ (M : Host.Core) (n : Nat) (s : M.State) : M.run (n + 1) s = (match M.step s with
    | .next t => M.run n t
    | .fault r => .fault r
    | .refused r => .refused r) := rfl

/-- A run whose first step answers a next state goes on from it. -/
theorem core_run_next {s t : State} (n : Nat) (h : step s = .next t) :
    Host.Core.run Sys2Proof.core (n + 1) s = Host.Core.run Sys2Proof.core n t := by
  have hs : Sys2Proof.core.step s = .next t := h
  rw [run_succ Sys2Proof.core n s, hs]

end Sys2Proof.Machine
end

