-- ==== Sys2Proof/Tests/Slice0.lean ====
section
/-! SUPPORT. Tests of the model, each on one decode or one step, with results from the spec's worked examples and
vectors (95_test_vectors.md V<n>, or the rule named), and a witness for the hypotheses of every statement. -/

namespace Sys2Proof.Tests

open Sys2Proof.Machine Sys2Proof.Spec

/-! ### Helpers -/

/-- The response of an outcome. -/
def rspOf : Result → Option Bytes
  | .next t => t.rsp
  | .fault _ => none
  | .refused _ => none

/-- A value read from the next state of an outcome. -/
def readOf {α : Type} (o : Result) (f : State → α) : Option α :=
  match o with
  | .next t => some (f t)
  | .fault _ => none
  | .refused _ => none

/-- The reset state with one request presented. -/
def cold (req : Bytes) : State := State.reset.withInputs [.request req]

/-- A ready block with an empty table and this request presented. -/
def warm (req : Bytes) : State := (cold req).setReady

/-- A ready block with slot 0 Occupied (R154's example). -/
def open0 (req : Bytes) : State := (warm req).setSlot 0 (some ⟨1234, 80, []⟩)

/-- A ready block with slot 3 Occupied and bytes queued (the general-form vector of 95_test_vectors.md 2.5). -/
def queued3 (req : Bytes) : State := (warm req).setSlot 3 (some ⟨1, 2, [0xAA, 0xBB, 0xCC]⟩)

/-- A ready block with all 64 slots Occupied. -/
def full : State := { State.reset.setReady with slots := Vector.replicate 64 (some ⟨1000, 80, []⟩) }

def bcast : Mac := ⟨0xFF, 0xFF, 0xFF, 0xFF, 0xFF, 0xFF⟩
def mac1 : Mac := ⟨0x02, 0, 0, 0, 0, 0x01⟩
def mac2 : Mac := ⟨0x02, 0, 0, 0, 0, 0x02⟩
def ipS : Ipa := ⟨0xC0, 0xA8, 0x01, 0x64⟩
def ipT : Ipa := ⟨0xC0, 0xA8, 0x01, 0x01⟩

/-! ### Well-formedness refuses each over-long variable part -/

theorem test_wf_ethEnc : (Instr.ethEnc mac1 mac2 0 (List.replicate 65521 0)).wellFormed = false := by
  simp only [Instr.wellFormed, Instr.variablePart, List.length_replicate]; rfl
theorem test_wf_ethDec : (Instr.ethDec (List.replicate 65535 0)).wellFormed = false := by
  simp only [Instr.wellFormed, Instr.variablePart, List.length_replicate]; rfl
theorem test_wf_ipEnc : (Instr.ipEnc ipS ipT 0 (List.replicate 65526 0)).wellFormed = false := by
  simp only [Instr.wellFormed, Instr.variablePart, List.length_replicate]; rfl
theorem test_wf_ipDec : (Instr.ipDec (List.replicate 65535 0)).wellFormed = false := by
  simp only [Instr.wellFormed, Instr.variablePart, List.length_replicate]; rfl
theorem test_wf_udpEnc : (Instr.udpEnc 0 0 0 0 (List.replicate 65527 0)).wellFormed = false := by
  simp only [Instr.wellFormed, Instr.variablePart, List.length_replicate]; rfl
theorem test_wf_udpDec : (Instr.udpDec (List.replicate 65535 0)).wellFormed = false := by
  simp only [Instr.wellFormed, Instr.variablePart, List.length_replicate]; rfl
theorem test_wf_udpSend : (Instr.udpSend (List.replicate 65535 0)).wellFormed = false := by
  simp only [Instr.wellFormed, Instr.variablePart, List.length_replicate]; rfl
theorem test_wf_udpRecv : (Instr.udpRecv (List.replicate 65535 0)).wellFormed = false := by
  simp only [Instr.wellFormed, Instr.variablePart, List.length_replicate]; rfl
theorem test_wf_tcpSend : (Instr.tcpSend 0 (List.replicate 65531 0)).wellFormed = false := by
  simp only [Instr.wellFormed, Instr.variablePart, List.length_replicate]; rfl

/-! ### Decoding: one message per operation, written out from the spec -/

/-- R165. -/
theorem test_decode_mgrInit : decode [0x01] = .instr .mgrInit := by decide
/-- R166. -/
theorem test_decode_mgrProcessEvents : decode [0x02] = .instr .mgrProcessEvents := by decide
/-- R168. -/
theorem test_decode_mgrGetStats : decode [0x03] = .instr .mgrGetStats := by decide
/-- V2. -/
theorem test_decode_macEq : decode [0x10, 0x02, 0, 0, 0, 0, 0x01, 0x02, 0, 0, 0, 0, 0x00]
    = .instr (.macEq ⟨0x02, 0, 0, 0, 0, 0x01⟩ ⟨0x02, 0, 0, 0, 0, 0x00⟩) := by decide
/-- V7. -/
theorem test_decode_macIsBcast : decode [0x11, 0x01, 0x00, 0x5E, 0x00, 0x00, 0x01]
    = .instr (.macIsBcast ⟨0x01, 0x00, 0x5E, 0x00, 0x00, 0x01⟩) := by decide
/-- V9. -/
theorem test_decode_macIsNull : decode [0x12, 0, 0, 0, 0, 0, 0x01] = .instr (.macIsNull ⟨0, 0, 0, 0, 0, 0x01⟩) := by decide
/-- V13. -/
theorem test_decode_ipaEq : decode [0x14, 0xC0, 0xA8, 0x01, 0x64, 0xC0, 0xA8, 0x01, 0x65]
    = .instr (.ipaEq ⟨0xC0, 0xA8, 0x01, 0x64⟩ ⟨0xC0, 0xA8, 0x01, 0x65⟩) := by decide
/-- V15. -/
theorem test_decode_ipaIsBcast : decode [0x15, 0xC0, 0xA8, 0x01, 0xFF] = .instr (.ipaIsBcast ⟨0xC0, 0xA8, 0x01, 0xFF⟩) := by decide
/-- V17. -/
theorem test_decode_ipaIsNull : decode [0x16, 0, 0, 0, 0x01] = .instr (.ipaIsNull ⟨0, 0, 0, 0x01⟩) := by decide
/-- V20. -/
theorem test_decode_ethEnc :
    decode [0x20, 0xFF, 0xFF, 0xFF, 0xFF, 0xFF, 0xFF, 0x02, 0, 0, 0, 0, 0x01, 0x08, 0x06, 0xDE, 0xAD]
      = .instr (.ethEnc bcast mac1 0x0806 [0xDE, 0xAD]) := by decide
/-- R123. -/
theorem test_decode_ethDec : decode [0x21, 0xFF, 0x02] = .instr (.ethDec [0xFF, 0x02]) := by decide
/-- V36. -/
theorem test_decode_ethAccept : decode [0x22, 0x02, 0, 0, 0, 0, 0x02, 0x02, 0, 0, 0, 0, 0x01]
    = .instr (.ethAccept mac2 mac1) := by decide
/-- V40. -/
theorem test_decode_ipEnc : decode [0x30, 0xC0, 0xA8, 0x01, 0x64, 0xC0, 0xA8, 0x01, 0x01, 0x11, 0x01, 0x02, 0x03]
    = .instr (.ipEnc ipS ipT 17 [0x01, 0x02, 0x03]) := by decide
/-- V47. -/
theorem test_decode_ipDec : decode [0x31] = .instr (.ipDec []) := by decide
/-- V45. -/
theorem test_decode_ipDispatch : decode [0x32, 0x2F] = .instr (.ipDispatch 47) := by decide
/-- V51. -/
theorem test_decode_udpEnc : decode [0x40, 0x04, 0xD2, 0x00, 0x50, 0x00, 0x0D, 0x00, 0x00, 0x47, 0x45, 0x54, 0x20, 0x2F]
    = .instr (.udpEnc 1234 80 13 0 [0x47, 0x45, 0x54, 0x20, 0x2F]) := by decide
/-- V56. -/
theorem test_decode_udpDec : decode [0x41, 0x04, 0xD2, 0x00, 0x50, 0x00, 0x08, 0x00]
    = .instr (.udpDec [0x04, 0xD2, 0x00, 0x50, 0x00, 0x08, 0x00]) := by decide
/-- V60. -/
theorem test_decode_udpSend : decode [0x42, 0x01, 0x02] = .instr (.udpSend [0x01, 0x02]) := by decide
/-- V64. -/
theorem test_decode_udpRecv : decode [0x43, 0x01, 0x02, 0x03] = .instr (.udpRecv [0x01, 0x02, 0x03]) := by decide
/-- V65. -/
theorem test_decode_tcpCreate : decode [0x50, 0x04, 0xD2, 0x00, 0x50] = .instr (.tcpCreate 1234 80) := by decide
/-- V72. -/
theorem test_decode_tcpClose : decode [0x51, 0x00, 0x00, 0x01, 0x00] = .instr (.tcpClose 256) := by decide
/-- V77. -/
theorem test_decode_tcpSend : decode [0x52, 0x00, 0x00, 0x00, 0x40, 0x78] = .instr (.tcpSend 64 [0x78]) := by decide
/-- V80. -/
theorem test_decode_tcpRecv : decode [0x53, 0x00, 0x00, 0x00, 0x00, 0x05, 0xDC] = .instr (.tcpRecv 0 1500) := by decide

/-- V91: reserved opcodes are rejected whatever the length. -/
theorem test_decode_reserved : decode [0x13, 0x00] = .rejected (.reservedOpcode 0x13) := by decide
/-- V10: MAC.EQ with one operand. -/
theorem test_decode_short : decode [0x10, 0x02, 0, 0, 0, 0, 0x01] = .rejected (.badLength .macEq) := by decide
/-- R93: 233 opcodes are reserved. -/
theorem test_reserved_count :
    ((List.range 256).filter (fun n => (lookupOpcode (BitVec.ofNat 8 n)).isNone)).length = 233 := by
  set_option maxRecDepth 20000 in decide
/-- R90: each opcode of the table selects its own operation. -/
theorem test_opcodes_of_the_table : rows.map (fun r => lookupOpcode r.1) = rows.map (fun r => some r.2.1) := by decide
/-- Every row of the opcode table, as its one fixed byte, decodes to its operation with operand bytes zero. -/
theorem test_table_words :
    rows.map (fun r => (decodeTableWord 8 r.1.toNat).map Instr.op) = rows.map (fun r => some r.2.1) := by decide
/-- The message placed for the step to fetch is the one the table's word stands for. -/
theorem test_fetch_word : rspOf (step (State.reset.withFetchWord 8 0x10)) = some [0x00, 0x01] := by decide

/-! ### Steps -/

/-- V93. -/
theorem test_init : readOf (step (cold [0x01])) (fun t => (t.ready, t.rsp)) = some (true, some [0x00]) := by decide
/-- V92: a trailing byte; `ready` stays 0. -/
theorem test_init_trailing : readOf (step (cold [0x01, 0x00])) (fun t => (t.ready, t.rsp)) = some (false, some [0xFF]) := by decide
/-- V89. -/
theorem test_process_events : rspOf (step (cold [0x02])) = some [0x00] := by decide
/-- V85. -/
theorem test_stats_unready : rspOf (step (cold [0x03])) = some (0x00 :: List.replicate 132 0x00) := by rfl
/-- P1 step 4. -/
theorem test_stats : rspOf (step ((open0 [0x03]).countTcpSent 5)) = some ([0x00] ++ List.replicate 64 0x00
    ++ [0, 0, 0, 0, 0, 0, 0, 1] ++ List.replicate 8 0x00 ++ [0, 0, 0, 0, 0, 0, 0, 5] ++ List.replicate 40 0x00
    ++ [0, 0, 0, 1]) := by rfl
/-- V1. -/
theorem test_macEq : rspOf (step (cold [0x10, 0x02, 0, 0, 0, 0, 0x01, 0x02, 0, 0, 0, 0, 0x01])) = some [0x00, 0x01] := by decide
/-- V2. -/
theorem test_macEq_last_bit : rspOf (step (cold [0x10, 0x02, 0, 0, 0, 0, 0x01, 0x02, 0, 0, 0, 0, 0x00])) = some [0x00, 0x00] := by decide
/-- V6. -/
theorem test_macIsBcast : rspOf (step (cold [0x11, 0xFF, 0xFF, 0xFF, 0xFF, 0xFF, 0xFE])) = some [0x00, 0x00] := by decide
/-- V8. -/
theorem test_macIsNull : rspOf (step (cold [0x12, 0, 0, 0, 0, 0, 0])) = some [0x00, 0x01] := by decide
/-- V13. -/
theorem test_ipaEq : rspOf (step (cold [0x14, 0xC0, 0xA8, 0x01, 0x64, 0xC0, 0xA8, 0x01, 0x65])) = some [0x00, 0x00] := by decide
/-- V14. -/
theorem test_ipaIsBcast : rspOf (step (cold [0x15, 0xFF, 0xFF, 0xFF, 0xFF])) = some [0x00, 0x01] := by decide
/-- V17. -/
theorem test_ipaIsNull : rspOf (step (cold [0x16, 0, 0, 0, 0x01])) = some [0x00, 0x00] := by decide
/-- V24: an unrecognised EtherType operand is written as 0x0000. -/
theorem test_ethEnc_unknown : rspOf (step (cold ([0x20] ++ bcast.bytes ++ mac1.bytes ++ [0x12, 0x34, 0xAA])))
    = some ([0x00] ++ bcast.bytes ++ mac1.bytes ++ [0x00, 0x00, 0xAA]) := by decide
/-- V23: the 1501st byte is dropped, frame 1514. -/
theorem test_ethEnc_truncates : (ethEncode ⟨bcast, mac1, .ipv4, List.replicate 1501 7⟩).length = 1514 := by
  simp only [ethEncode, List.length_append, List.length_take, List.length_replicate]; rfl
/-- R123's example. -/
theorem test_ethDec : rspOf (step (cold ([0x21] ++ bcast.bytes ++ mac1.bytes ++ [0x08, 0x06, 0xDE, 0xAD])))
    = some ([0x00] ++ bcast.bytes ++ mac1.bytes ++ [0x08, 0x06, 0x00, 0x02, 0xDE, 0xAD]) := by decide
/-- V28: one byte short. -/
theorem test_ethDec_short : rspOf (step (cold ([0x21] ++ mac1.bytes ++ mac2.bytes ++ [0x08]))) = some [0x01] := by decide
/-- V34. -/
theorem test_ethAccept_bcast : rspOf (step (cold ([0x22] ++ bcast.bytes ++ mac1.bytes))) = some [0x00, 0x01] := by decide
/-- V36. -/
theorem test_ethAccept_neither : rspOf (step (cold ([0x22] ++ mac2.bytes ++ mac1.bytes))) = some [0x00, 0x00] := by decide
/-- V40. -/
theorem test_ipEnc : rspOf (step (cold ([0x30] ++ ipS.bytes ++ ipT.bytes ++ [0x11, 0x01, 0x02, 0x03])))
    = some ([0x00, 0, 0, 0, 0, 0, 0, 0, 0, 0, 0x11, 0x00, 0x00] ++ ipS.bytes ++ ipT.bytes ++ [0x01, 0x02, 0x03]) := by decide
/-- V50: filler ignored. -/
theorem test_ipDec : rspOf (step (cold ([0x31, 0x45, 0x00, 0x00, 0x17, 0x00, 0x00, 0x00, 0x00, 0x40, 0x11, 0xAB, 0xCD]
    ++ ipS.bytes ++ ipT.bytes ++ [0x01, 0x02, 0x03])))
    = some ([0x00] ++ ipS.bytes ++ ipT.bytes ++ [0x11, 0x00, 0x03, 0x01, 0x02, 0x03]) := by decide
/-- V47: 19 bytes. -/
theorem test_ipDec_short : rspOf (step (cold ([0x31] ++ List.replicate 19 0))) = some [0x01] := by decide
/-- V45. -/
theorem test_ipDispatch : [0x01, 0x06, 0x11, 0x00, 0x02, 0x29, 0x2F, 0xFF].map (fun p => rspOf (step (cold [0x32, p])))
    = [some [0x00, 0x01], some [0x00, 0x06], some [0x00, 0x11], some [0x01], some [0x01], some [0x01], some [0x01],
       some [0x01]] := by decide
/-- V54: the checksum is carried as given. -/
theorem test_udpEnc : rspOf (step (cold [0x40, 0x00, 0x00, 0xFF, 0xFF, 0x00, 0x08, 0xBE, 0xEF]))
    = some [0x00, 0x00, 0x00, 0xFF, 0xFF, 0x00, 0x08, 0xBE, 0xEF] := by decide
/-- V59: length and checksum returned, neither checked. -/
theorem test_udpDec : rspOf (step (cold [0x41, 0x04, 0xD2, 0x00, 0x50, 0xFF, 0xFF, 0x12, 0x34, 0xAA]))
    = some [0x00, 0x04, 0xD2, 0x00, 0x50, 0xFF, 0xFF, 0x12, 0x34, 0x00, 0x01, 0xAA] := by decide
/-- V56: 7 bytes. -/
theorem test_udpDec_short : rspOf (step (cold [0x41, 0x04, 0xD2, 0x00, 0x50, 0x00, 0x08, 0x00])) = some [0x01] := by decide
/-- R144's example. -/
theorem test_udpSend : readOf (step (warm [0x42, 0x47, 0x45, 0x54, 0x20, 0x2F])) (fun t => (t.rsp, t.ctr.udp))
    = some (some [0x00], ⟨1, 0, 5, 0⟩) := by decide
/-- R145's example. -/
theorem test_udpRecv : readOf (step (warm [0x43, 0x01, 0x02, 0x03])) (fun t => (t.rsp, t.ctr.udp))
    = some (some [0x00], ⟨0, 1, 0, 3⟩) := by decide
/-- V66: the first free slot is 1; the same port pair again is allowed. -/
theorem test_tcpCreate : readOf (step (open0 [0x50, 0x04, 0xD2, 0x00, 0x50])) (fun t => (t.rsp, t.slots[1]))
    = some (some [0x00, 0x00, 0x00, 0x00, 0x01], some ⟨1234, 80, []⟩) := by decide
/-- P3 step 66. -/
theorem test_tcpCreate_full : rspOf (step (full.withInputs [.request [0x50, 0x04, 0x28, 0x00, 0x50]])) = some [0x01] := by decide
/-- R152's example. -/
theorem test_tcpClose : readOf (step (open0 [0x51, 0x00, 0x00, 0x00, 0x00])) (fun t => (t.rsp, t.slots[0]))
    = some (some [0x00], none) := by decide
/-- V72: 256 is out of range, not slot 0. -/
theorem test_tcpClose_256 : readOf (step (open0 [0x51, 0x00, 0x00, 0x01, 0x00])) (fun t => (t.rsp, t.slots[0]))
    = some (some [0x01], some ⟨1234, 80, []⟩) := by decide
/-- R154's example. -/
theorem test_tcpSend : readOf (step (open0 [0x52, 0x00, 0x00, 0x00, 0x00, 0x47, 0x45, 0x54, 0x20, 0x2F]))
    (fun t => (t.rsp, t.ctr.tcp)) = some (some [0x00], ⟨1, 0, 5, 0⟩) := by decide
/-- V76: an Empty slot. -/
theorem test_tcpSend_empty : readOf (step (open0 [0x52, 0x00, 0x00, 0x00, 0x01, 0x78])) (fun t => (t.rsp, t.ctr.tcp))
    = some (some [0x01], ⟨0, 0, 0, 0⟩) := by decide
/-- The general-form vector of R156. -/
theorem test_tcpRecv : readOf (step (queued3 [0x53, 0x00, 0x00, 0x00, 0x03, 0x00, 0x02]))
    (fun t => (t.rsp, t.ctr.tcp, t.slots[3]))
    = some (some [0x00, 0x00, 0x02, 0xAA, 0xBB], ⟨0, 1, 0, 2⟩, some ⟨1, 2, [0xCC]⟩) := by decide
/-- V81: an invalid handle is indistinguishable from no data. -/
theorem test_tcpRecv_invalid : rspOf (step (open0 [0x53, 0x00, 0x00, 0x00, 0x40, 0x05, 0xDC])) = some [0x00, 0x00, 0x00] := by decide
/-- R201: a reset between requests clears `ready` and the table. -/
theorem test_reset : readOf (step { (open0 []) with inputs := [.reset] }) (fun t => (t.ready, t.slots[0])) = some (false, none) := by decide

/-! ### Witnesses: for every statement with hypotheses, concrete inputs that meet them, at the ends of their ranges

A statement whose hypotheses are met by every state (its clauses split the states and operands between them) has one
witness for each clause. -/

/-- A block with this request presented, of any length a message can have. -/
theorem witness_request (b : Byte) (tl : Bytes) : (cold (b :: tl)).inputs = .request (b :: tl) :: [] := rfl

/-- DecodeOfEncodeIsTheInstruction: the longest variable part of each format that has one, and none. -/
theorem witness_DecodeOfEncodeIsTheInstruction :
    (Instr.ethEnc mac1 mac2 0xFFFF (List.replicate 65520 7)).wellFormed = true ∧
    (Instr.ethDec (List.replicate 65534 7)).wellFormed = true ∧
    (Instr.ipEnc ipS ipT 0xFF (List.replicate 65525 7)).wellFormed = true ∧
    (Instr.udpEnc 1 2 3 4 (List.replicate 65526 7)).wellFormed = true ∧
    (Instr.tcpSend 0xFFFFFFFF (List.replicate 65530 7)).wellFormed = true ∧
    (Instr.tcpSend 64 []).wellFormed = true ∧ (Instr.tcpRecv 63 0xFFFF).wellFormed = true := by
  simp only [Instr.wellFormed, Instr.variablePart, List.length_replicate]; decide

/-- EncodeOfDecodeIsTheRequest, OperandsStandAtTheirOffsets: for every operation a message of its fixed length decodes
to it (the messages with operand bytes that differ are test_decode_*). -/
theorem witness_decode_answers_an_instruction :
    rows.all (fun r => match decode (r.1 :: List.replicate (r.2.2.1 - 1) 0x00) with
      | .instr i => decide (i.op = r.2.1)
      | .rejected _ => false) = true := by decide

/-- DecodeAcceptsExactlyTheFormats: the lengths `F` and `F + 1` meet the right side or not as R83 says. -/
theorem witness_DecodeAcceptsExactlyTheFormats :
    (0x10, Op.macEq, 13, false) ∈ rows ∧ LengthFits 13 false 13 ∧ ¬ LengthFits 13 false 12 ∧ ¬ LengthFits 13 false 14 ∧
    (0x20, Op.ethEnc, 15, true) ∈ rows ∧ LengthFits 15 true 15 ∧ ¬ LengthFits 15 true 14 ∧ LengthFits 15 true 65535 := by
  refine ⟨by decide, ?_, ?_, ?_, by decide, ?_, ?_, ?_⟩ <;> simp [LengthFits]

/-- ReservedOpcodeAnswersBadRequest: both ends of each range of R93, alone and in the longest message. -/
theorem witness_ReservedOpcodeAnswersBadRequest :
    (∀ b ∈ ([0x00, 0x04, 0x0F, 0x13, 0x17, 0x1F, 0x23, 0x2F, 0x33, 0x3F, 0x44, 0x4F, 0x54, 0xFF] : Bytes),
      (cold [b]).inputs = .request [b] :: [] ∧ [b].length ≤ 65535 ∧
      (b = 0x00 ∨ (0x04 ≤ b ∧ b ≤ 0x0F) ∨ b = 0x13 ∨ (0x17 ≤ b ∧ b ≤ 0x1F) ∨ (0x23 ≤ b ∧ b ≤ 0x2F) ∨
        (0x33 ≤ b ∧ b ≤ 0x3F) ∨ (0x44 ≤ b ∧ b ≤ 0x4F) ∨ (0x54 ≤ b))) ∧
    (0xFF :: List.replicate 65534 (0 : Byte)).length ≤ 65535 := by
  refine ⟨by decide, ?_⟩
  rw [List.length_cons, List.length_replicate]

/-- LengthCheckOfEachFormat and every BadLength clause: a message of each opcode that is one byte too short (where
its format has more than the opcode) and, for a format with no variable part, one byte too long. Format B
takes every length (R123). -/
theorem witness_LengthCheckOfEachFormat :
    ∀ r ∈ rows,
      (1 < r.2.2.1 → ¬ (r.2.2.2 = true ∧ r.2.2.1 ≤ r.2.2.1 - 1) ∧ ¬ (r.2.2.2 = false ∧ r.2.2.1 - 1 = r.2.2.1) ∧
        (r.1 :: List.replicate (r.2.2.1 - 2) (0 : Byte)).length = r.2.2.1 - 1) ∧
      (r.2.2.2 = false → r.2.2.1 + 1 ≠ r.2.2.1 ∧
        (r.1 :: List.replicate r.2.2.1 (0 : Byte)).length = r.2.2.1 + 1 ∧ r.2.2.1 + 1 ≤ 65535) := by decide

/-- A message of every length from 1 to 65535. -/
theorem delivered_replicate (n : Nat) (h : n < 65535) : Delivered (0x42 :: List.replicate n 7) := by
  simp only [Delivered, List.length_cons, List.length_replicate, Config.reqMaxLen]; omega

/-- EveryDeliveredRequestIsAnswered: the shortest and the longest message. -/
theorem witness_EveryDeliveredRequestIsAnswered :
    Delivered (0x42 :: List.replicate 0 7) ∧ Delivered (0x42 :: List.replicate 65534 7) :=
  ⟨delivered_replicate 0 (by omega), delivered_replicate 65534 (by omega)⟩

/-- StepRunsTheDecodedInstruction. -/
theorem witness_StepRunsTheDecodedInstruction :
    (open0 [0x51, 0, 0, 0, 0]).inputs = .request [0x51, 0, 0, 0, 0] :: [] ∧
    decode [0x51, 0, 0, 0, 0] = .instr (.tcpClose 0) := ⟨rfl, by decide⟩

/-- StepWithNothingPresentedIsIdle. -/
theorem witness_StepWithNothingPresentedIsIdle : State.reset.inputs = [] := rfl

/-- StepStopsOnlyOnUndeliveredMessages: each of its two causes, the second at its shortest. -/
theorem witness_StepStopsOnlyOnUndeliveredMessages :
    (∃ rest, (cold []).inputs = .request [] :: rest) ∧
    (∃ req rest, (cold (List.replicate 65536 7)).inputs = .request req :: rest ∧ 65535 < req.length) := by
  refine ⟨⟨[], rfl⟩, _, [], rfl, ?_⟩
  simp only [List.length_replicate]; decide

/-- ResetGivesTheConstructedState, from a ready block with a live connection and a request still to come. -/
theorem witness_ResetGivesTheConstructedState :
    ((open0 []).withInputs [.reset, .request [0x01]]).inputs = .reset :: [.request [0x01]] := rfl

/-- MacPredicatesAnswer and EthAcceptAnswers: operands for each clause. -/
theorem witness_MacPredicatesAnswer :
    (∀ k < 6, byteAt mac1.bytes k = byteAt mac1.bytes k) ∧ ¬ (∀ k < 6, byteAt mac1.bytes k = byteAt mac2.bytes k) ∧
    (∀ k < 6, byteAt bcast.bytes k = 0xFF) ∧
    ¬ (∀ k < 6, byteAt (⟨0xFF, 0xFF, 0xFF, 0xFF, 0xFF, 0xFE⟩ : Mac).bytes k = 0xFF) ∧
    (∀ k < 6, byteAt (⟨0, 0, 0, 0, 0, 0⟩ : Mac).bytes k = 0x00) ∧
    ¬ (∀ k < 6, byteAt (⟨0, 0, 0, 0, 0, 1⟩ : Mac).bytes k = 0x00) ∧
    (bcast = ⟨0xFF, 0xFF, 0xFF, 0xFF, 0xFF, 0xFF⟩ ∨ bcast = mac1) ∧
    (mac1 = ⟨0xFF, 0xFF, 0xFF, 0xFF, 0xFF, 0xFF⟩ ∨ mac1 = mac1) ∧
    ¬ (mac2 = ⟨0xFF, 0xFF, 0xFF, 0xFF, 0xFF, 0xFF⟩ ∨ mac2 = mac1) := by decide

/-- IpaPredicatesAnswer: operands for each clause. -/
theorem witness_IpaPredicatesAnswer :
    (∀ k < 4, byteAt ipS.bytes k = byteAt ipS.bytes k) ∧ ¬ (∀ k < 4, byteAt ipS.bytes k = byteAt ipT.bytes k) ∧
    (∀ k < 4, byteAt (⟨0xFF, 0xFF, 0xFF, 0xFF⟩ : Ipa).bytes k = 0xFF) ∧
    ¬ (∀ k < 4, byteAt (⟨0xC0, 0xA8, 0x01, 0xFF⟩ : Ipa).bytes k = 0xFF) ∧
    (∀ k < 4, byteAt (⟨0, 0, 0, 0⟩ : Ipa).bytes k = 0x00) ∧ ¬ (∀ k < 4, byteAt (⟨0, 0, 0, 1⟩ : Ipa).bytes k = 0x00) := by
  decide

/-- EtherTypeIsNormalised. -/
theorem witness_EtherTypeIsNormalised :
    ((0x86DD : Half) = 0x0800 ∨ (0x86DD : Half) = 0x86DD ∨ (0x86DD : Half) = 0x0806) ∧
    ¬ ((0x0801 : Half) = 0x0800 ∨ (0x0801 : Half) = 0x86DD ∨ (0x0801 : Half) = 0x0806) := by decide

/-- The length clauses of ETH.DEC, IP.DEC and UDP.DEC and of the three round trips, at both ends of each range: there
is a byte string of every length. -/
theorem witness_decoder_lengths (n : Nat) : (List.replicate n (7 : Byte)).length = n := List.length_replicate
theorem witness_EthDecAnswersTheFields : 13 < 14 ∧ 14 ≤ 14 ∧ 14 ≤ 1514 ∧ 1514 ≤ 1514 ∧ 1514 < 1515 := by decide
theorem witness_IpDecAnswersTheFields : 19 < 20 ∧ 20 ≤ 20 ∧ 20 ≤ 1500 ∧ 1500 ≤ 1500 ∧ 1500 < 1501 := by decide
theorem witness_UdpDecAnswersTheFields : 7 < 8 ∧ 8 ≤ 8 ∧ 8 ≤ 1480 ∧ 1480 ≤ 1480 ∧ 1480 < 1481 := by decide

/-- The round trips and CapsNest: payloads at the cap of each format, and a frame of 1514 bytes. -/
theorem witness_round_trips :
    (⟨mac1, mac2, .arp, List.replicate 1500 7⟩ : EthFrame).payload.length ≤ 1500 ∧
    (⟨ipS, ipT, 47, List.replicate 1480 7⟩ : IpPacket).payload.length ≤ 1480 ∧
    (⟨1, 2, 3, 4, List.replicate 1472 7⟩ : UdpDatagram).payload.length ≤ 1472 ∧
    (List.replicate 1514 (7 : Byte)).length = 1514 := by
  simp only [List.length_replicate]; decide

/-- IpDispatchAnswers. -/
theorem witness_IpDispatchAnswers :
    (∀ p ∈ ([1, 6, 17] : Bytes), p = 1 ∨ p = 6 ∨ p = 17) ∧ (∀ p ∈ ([0, 2, 5, 7, 16, 18, 0xFF] : Bytes), ¬ (p = 1 ∨ p = 6 ∨ p = 17)) := by
  decide

/-- UdpSendAndRecvCount, GetStatsAnswersTheSnapshot, ReadyGateAnswers: `ready` is 0 after reset and 1 after MGR.INIT. -/
theorem witness_ready : State.reset.ready = false ∧ (warm []).ready = true := ⟨rfl, rfl⟩

/-- TcpCreateTakesTheSmallestFreeSlot: slot 0 free, slots 0 to 62 taken and 63 free, all 64 taken. -/
theorem witness_TcpCreateTakesTheSmallestFreeSlot :
    ((warm []).ready = true ∧ (warm []).slots[(0 : Fin 64)] = none) ∧
    ((full.setSlot 63 none).ready = true ∧ (full.setSlot 63 none).slots[(63 : Fin 64)] = none ∧
      ∀ j < (63 : Fin 64), (full.setSlot 63 none).slots[j] ≠ none) ∧
    (full.ready = true ∧ ∀ k : Fin 64, full.slots[k] ≠ none) := by decide

/-- TcpCloseVacatesTheSlot, TcpSendCounts: ids 0 and 63 Occupied, id 63 Empty, ids 64 and 2^32 - 1 out of range. -/
theorem witness_TcpCloseVacatesTheSlot :
    ((open0 []).ready = true ∧ (0 : ConnId).toNat = (0 : Fin 64).val ∧ (open0 []).slots[(0 : Fin 64)] = some ⟨1234, 80, []⟩) ∧
    (full.ready = true ∧ (63 : ConnId).toNat = (63 : Fin 64).val ∧ full.slots[(63 : Fin 64)] = some ⟨1000, 80, []⟩) ∧
    ((63 : ConnId).toNat = (63 : Fin 64).val ∧ (open0 []).slots[(63 : Fin 64)] = none) ∧
    64 ≤ (64 : ConnId).toNat ∧ 64 ≤ (0xFFFFFFFF : ConnId).toNat := by decide

/-- TcpRecvMovesQueuedBytes: nothing queued, a capacity of 0, a capacity below, at and above what is queued. -/
theorem witness_TcpRecvMovesQueuedBytes :
    ((open0 []).slots[(0 : Fin 64)] = some ⟨1234, 80, []⟩ ∧ min ([] : Bytes).length (1500 : Half).toNat = 0) ∧
    ((queued3 []).ready = true ∧ (3 : ConnId).toNat = (3 : Fin 64).val ∧
      (queued3 []).slots[(3 : Fin 64)] = some ⟨1, 2, [0xAA, 0xBB, 0xCC]⟩) ∧
    min ([0xAA, 0xBB, 0xCC] : Bytes).length (0 : Half).toNat = 0 ∧
    0 < min ([0xAA, 0xBB, 0xCC] : Bytes).length (1 : Half).toNat ∧
    0 < min ([0xAA, 0xBB, 0xCC] : Bytes).length (3 : Half).toNat ∧
    0 < min ([0xAA, 0xBB, 0xCC] : Bytes).length (0xFFFF : Half).toNat := by decide

/-- SendStatisticsLaw, ActiveCountMovesByOne, CountersHaveTheirWriters, SlotsHaveTheirWriters: operations that answer a
next state, with each kind of change. -/
theorem witness_exec_answers_next :
    exec (.tcpSend 0 [1, 2]) (open0 []) = .next (((open0 []).countTcpSent 2).respond (.ok [])) ∧
    exec (.tcpSend 64 [1, 2]) (open0 []) = .next ((open0 []).respond .fail) ∧
    exec (.tcpCreate 5 6) (warm []) = .next (((warm []).setSlot 0 (some ⟨5, 6, []⟩)).respond (.ok [0, 0, 0, 0])) ∧
    exec (.tcpClose 0) (open0 []) = .next (((open0 []).setSlot 0 none).respond (.ok [])) ∧
    exec (.tcpRecv 3 2) (queued3 []) = .next ((((queued3 []).setSlot 3 (some ⟨1, 2, [0xCC]⟩)).countTcpReceived 2).respond
      (.ok [0x00, 0x02, 0xAA, 0xBB])) ∧
    exec (.udpSend [1]) (warm []) = .next (((warm []).countUdpSent 1).respond (.ok [])) := ⟨rfl, rfl, rfl, rfl, rfl, rfl⟩

/-- A slot of `open0`. -/
theorem open0_slot (k : Fin 64) : (open0 []).slots[k] = if k = 0 then some ⟨1234, 80, []⟩ else none := by
  revert k; decide

/-- TcpRecvDeliversNothingReachable, StepKeepsReachInv, ResponsesFitTheResponseBuffer: a ready block with a live
connection and a request presented meets the invariant, and its step answers a next state with a response. -/
theorem witness_ReachInv : ReachInv (open0 []) ∧ ReachInv ((open0 []).withInputs [.request [0x02]]) ∧
    ((open0 []).withInputs [.request [0x02]]).inputs = .request [0x02] :: [] ∧
    step ((open0 []).withInputs [.request [0x02]]) = .next (((open0 []).withInputs []).respond (.ok [])) ∧
    (((open0 []).withInputs []).respond (.ok [])).rsp = some [0x00] := by
  have h : ∀ (k : Fin 64) (c : Conn), (open0 []).slots[k] = some c → c.rxq = [] := by
    intro k c hc
    rw [open0_slot] at hc
    split at hc
    · cases hc; rfl
    · cases hc
  exact ⟨⟨h, rfl, rfl, ⟨rfl, rfl⟩, fun hr => by simp [open0, warm, State.setSlot, State.setReady] at hr⟩,
    ⟨h, rfl, rfl, ⟨rfl, rfl⟩, fun hr => by simp [open0, warm, State.setSlot, State.setReady, State.withInputs] at hr⟩,
    rfl, rfl, rfl⟩

/-- UnreadySnapshotIsTheTrueOne. -/
theorem witness_UnreadySnapshotIsTheTrueOne : ReachInv State.reset ∧ State.reset.ready = false := by
  refine ⟨⟨fun k c hc => ?_, rfl, rfl, ⟨rfl, rfl⟩, fun _ => ⟨rfl, rfl⟩⟩, rfl⟩
  have h : ∀ k : Fin 64, State.reset.slots[k] = none := by decide
  rw [h k] at hc; cases hc

/-- CreatesFillTheTableInOrder: 64 creates and no others, 2 creates with more to come, no create at all; a full table. -/
theorem witness_CreatesFillTheTableInOrder :
    (warm []).ready = true ∧ (∀ k : Fin 64, (warm []).slots[k] = none) ∧
    (List.replicate 64 ((1000, 80) : Half × Half)).length ≤ 64 ∧
    ((warm []).withInputs [.request (encode (.tcpCreate 1 2)), .request (encode (.tcpCreate 3 4)), .reset]).inputs
      = ([(1, 2), (3, 4)] : List (Half × Half)).map (fun p => .request (encode (.tcpCreate p.1 p.2))) ++ [.reset] ∧
    (∀ k : Fin 64, full.slots[k] ≠ none) ∧ full.ready = true :=
  ⟨rfl, by decide, by decide, rfl, by decide, rfl⟩

/-- ClosedIdIsHandedOutAgain: a close of slot 0, and one of slot 3 with slot 0 free. -/
theorem witness_ClosedIdIsHandedOutAgain :
    (exec (.tcpClose 0) (open0 []) = .next (((open0 []).setSlot 0 none).respond (.ok [])) ∧
      (((open0 []).setSlot 0 none).respond (.ok [])).rsp = some [0x00]) ∧
    (exec (.tcpClose 3) (queued3 []) = .next (((queued3 []).setSlot 3 none).respond (.ok [])) ∧
      (((queued3 []).setSlot 3 none).respond (.ok [])).rsp = some [0x00]) := ⟨⟨rfl, rfl⟩, rfl, rfl⟩

/-- OtherOperationsIgnoreReady, PureOperationsReadAndWriteNoState. -/
theorem witness_OtherOperationsIgnoreReady :
    (Instr.mgrProcessEvents).op.isForwarding = false ∧ (Instr.mgrInit).op.isForwarding = false ∧
    (Instr.ipDispatch 6).op.isForwarding = false ∧ (Instr.ipDispatch 6).op.isPure = true ∧
    (Instr.udpDec []).op.isPure = true := by decide

/-- OnlyInitSetsReadyOnlyResetClearsIt: both changes happen. -/
theorem witness_OnlyInitSetsReadyOnlyResetClearsIt :
    (step (cold [0x01]) = .next ((State.reset.setReady).respond (.ok [])) ∧ (cold [0x01]).ready = false ∧
      ((State.reset.setReady).respond (.ok [])).ready = true) ∧
    (step (full.withInputs [.reset]) = .next State.reset ∧ (full.withInputs [.reset]).ready = true ∧
      State.reset.ready = false) := ⟨⟨rfl, rfl, rfl⟩, rfl, rfl, rfl⟩

/-- FailuresChangeNothing: a FAIL and a BAD_REQUEST from a block with a live connection; CountersAdvanceByAtMost65535. -/
theorem witness_FailuresChangeNothing :
    (step (open0 [0x51, 0, 0, 0, 64]) = .next (((open0 []).withInputs []).respond .fail) ∧
      (((open0 []).withInputs []).respond .fail).rsp = some [0x01]) ∧
    (step (open0 [0x13]) = .next (((open0 []).withInputs []).respond .badRequest) ∧
      (((open0 []).withInputs []).respond .badRequest).rsp = some [0xFF]) := ⟨⟨rfl, rfl⟩, rfl, rfl⟩

/-- UnreadBytesNeverMatter: different byte strings of one length that agree on their first bytes. -/
theorem witness_UnreadBytesNeverMatter (n : Nat) :
    (List.replicate n (7 : Byte) ++ ([1] : Bytes)).take n = (List.replicate n (7 : Byte) ++ ([2] : Bytes)).take n ∧
    (List.replicate n (7 : Byte) ++ ([1] : Bytes)).length = (List.replicate n (7 : Byte) ++ ([2] : Bytes)).length ∧
    List.replicate n (7 : Byte) ++ ([1] : Bytes) ≠ List.replicate n (7 : Byte) ++ ([2] : Bytes) := by
  refine ⟨?_, ?_, fun h => ?_⟩
  · rw [List.take_left' List.length_replicate, List.take_left' List.length_replicate]
  · rw [List.length_append, List.length_append]; rfl
  · exact absurd (List.append_cancel_left h) (by decide)

/-- OkResponsesHaveTheirLength: an OK response with fields, and one with none. -/
theorem witness_OkResponsesHaveTheirLength :
    (exec (.ipDispatch 6) State.reset = .next (State.reset.respond (.ok [6])) ∧
      (State.reset.respond (.ok [6])).rsp = some (0x00 :: [6])) ∧
    (exec .mgrInit State.reset = .next (State.reset.setReady.respond (.ok [])) ∧
      (State.reset.setReady.respond (.ok [])).rsp = some (0x00 :: [])) := ⟨⟨rfl, rfl⟩, rfl, rfl⟩

/-- SafeRunsNeverStop. -/
theorem witness_SafeRunsNeverStop : SafeInputs State.reset ∧ SafeInputs (cold [0x01]) := by
  constructor
  · intro req h; simp [State.reset, State.construct] at h
  · intro req h
    simp [cold, State.withInputs] at h
    subst h; exact ⟨by decide, by decide⟩

end Sys2Proof.Tests
end

section
/-! The big-endian fields of R8 and their inverses. -/

namespace Sys2Proof

/-- R8: `be32(s, o)` in its four bytes. -/
theorem be32_toNat_bytes (s : Bytes) (o : Nat) :
    (be32 s o).toNat = (byteAt s o).toNat * 2 ^ 24 + (byteAt s (o + 1)).toNat * 2 ^ 16
      + (byteAt s (o + 2)).toNat * 2 ^ 8 + (byteAt s (o + 3)).toNat := by
  have hlow : (be16 s (o + 2)).toNat = (byteAt s (o + 2)).toNat * 256 + (byteAt s (o + 3)).toNat := be16_toNat s (o + 2)
  rw [be32_toNat, be16_toNat s o, hlow]
  omega

/-- R8: `be64(s, o)` in its two 32-bit halves. -/
theorem be64_toNat (s : Bytes) (o : Nat) :
    (be64 s o).toNat = (be32 s o).toNat * 2 ^ 32 + (be32 s (o + 4)).toNat := by
  rw [be64, BitVec.toNat_append, Nat.shiftLeft_eq, Nat.mul_comm, ← Nat.two_pow_add_eq_or_of_lt (be32 s (o + 4)).isLt]

theorem be64_enc64_self (v : BitVec 64) : be64 (enc64 v) 0 = v := by simpa using be64_enc64 v []

/-- R8: the two bytes of `enc16(v)`, the more significant first, have the value `v`: they are what `be16` reads back. -/
theorem enc16_bytes_toNat (v : Half) :
    v.toNat = (v.extractLsb' 8 8 : Byte).toNat * 256 + (v.extractLsb' 0 8 : Byte).toNat := by
  have hread := be16_toNat (enc16 v) 0
  rwa [be16_enc16_self] at hread

/-- Settles O6: the values are those of the bytes read, and the encodings read back by `be16_enc16` and its like. -/
theorem bigEndianFieldsAndTheirInverse : Obligations.BigEndianFieldsAndTheirInverse :=
  ⟨be16_toNat, be32_toNat_bytes, be64_toNat,
    fun v => ⟨v.extractLsb' 8 8, v.extractLsb' 0 8, rfl, enc16_bytes_toNat v⟩,
    fun v => ⟨enc32_length v, be32_enc32_self v⟩,
    fun v => ⟨enc64_length v, be64_enc64_self v⟩⟩

end Sys2Proof
end

section
/-! What the length check and the opcode lookup decide: rules R83, R85, R90 and R93 of 30_encoding.md. -/

namespace Sys2Proof

open Machine Spec

/-- R90 and R85: a row of the spec's table holds the opcode, the fixed length and the variable part of its operation. -/
theorem row_eq_of_mem_rows {b : Byte} {o : Op} {F : Nat} {v : Bool} (h : (b, o, F, v) ∈ rows) :
    b = o.opcode ∧ F = o.format.fixedLen ∧ v = o.format.hasVariable := by
  have hrows : ∀ r ∈ rows, r.1 = r.2.1.opcode ∧ r.2.2.1 = r.2.1.format.fixedLen ∧
      r.2.2.2 = r.2.1.format.hasVariable := by decide
  exact hrows _ h

theorem lengthOk_iff_lengthFits (f : Format) (n : Nat) :
    f.lengthOk n = true ↔ LengthFits f.fixedLen f.hasVariable n := by
  cases hv : f.hasVariable <;> simp [Format.lengthOk, LengthFits, hv]

theorem fixedLen_le_of_lengthOk {f : Format} {n : Nat} (h : f.lengthOk n = true) : f.fixedLen ≤ n := by
  obtain ⟨-, hle⟩ | ⟨-, heq⟩ := (lengthOk_iff_lengthFits f n).1 h
  · exact hle
  · exact heq.ge

/-- R85: the variable part of what the decoder assembles is `req[F:]`, empty for a format without one. -/
theorem assemble_variablePart (o : Op) (req : Bytes) :
    (assemble o req).variablePart = if o.format.hasVariable then req.drop o.format.fixedLen else [] := by
  cases o <;> rfl

theorem decode_of_lookupOpcode_none {b : Byte} {tl : Bytes} (hb : lookupOpcode b = none)
    (hl : (b :: tl).length ≤ Config.reqMaxLen) : decode (b :: tl) = .rejected (.reservedOpcode b) := by
  simp only [decode, Nat.not_lt.2 hl, if_false, hb]

/-- R93: the reserved values of the opcode byte, as the rule lists them. -/
abbrev IsReservedOpcode (b : Byte) : Prop :=
  b = 0x00 ∨ (0x04 ≤ b ∧ b ≤ 0x0F) ∨ b = 0x13 ∨ (0x17 ≤ b ∧ b ≤ 0x1F) ∨ (0x23 ≤ b ∧ b ≤ 0x2F) ∨
    (0x33 ≤ b ∧ b ≤ 0x3F) ∨ (0x44 ≤ b ∧ b ≤ 0x4F) ∨ (0x54 ≤ b)

theorem not_isReservedOpcode_opcode (o : Op) : ¬ IsReservedOpcode o.opcode := by
  cases o <;> decide

theorem lookupOpcode_of_isReservedOpcode {b : Byte} (hb : IsReservedOpcode b) : lookupOpcode b = none := by
  cases ho : lookupOpcode b with
  | none => rfl
  | some o => exact absurd (opcode_of_lookup ho ▸ hb) (not_isReservedOpcode_opcode o)

end Sys2Proof

namespace Sys2Proof.Machine

/-- A step on a message the decoder rejects. -/
theorem step_of_rejected {s : State} {req : Bytes} {rest : List HostInput} {why : DecodeError}
    (hs : s.inputs = .request req :: rest) (hd : decode req = .rejected why) :
    step s = answerRejected why (s.withInputs rest) := by
  simp [step, hs, hd]

end Sys2Proof.Machine

namespace Sys2Proof

open Machine Spec

/-- Settles O7: no operation's opcode is a reserved value, so the lookup finds none. -/
theorem reservedOpcodeAnswersBadRequest : Obligations.ReservedOpcodeAnswersBadRequest := by
  intro s b tl rest hs hl hb
  exact step_of_rejected hs (decode_of_lookupOpcode_none (lookupOpcode_of_isReservedOpcode hb) hl)

/-- R83: a message of an operation's opcode whose length fails the check. -/
theorem badLength_opcode (o : Op) :
    BadLength o.opcode (fun n => ¬ LengthFits o.format.fixedLen o.format.hasVariable n) := by
  intro s tl rest hs hl hbad
  have hd : decode (o.opcode :: tl) = .rejected (.badLength o) := by
    rw [decode_opcode_cons o tl hl, if_neg (mt (lengthOk_iff_lengthFits _ _).1 hbad)]
  exact step_of_rejected hs hd

/-- R83: a message of an operation's opcode whose length passes the check. -/
theorem decode_of_lengthFits (o : Op) (tl : Bytes) (hl : (o.opcode :: tl).length ≤ Config.reqMaxLen)
    (hfit : LengthFits o.format.fixedLen o.format.hasVariable (o.opcode :: tl).length) :
    decode (o.opcode :: tl) = .instr (assemble o (o.opcode :: tl)) := by
  rw [decode_opcode_cons o tl hl, if_pos ((lengthOk_iff_lengthFits _ _).2 hfit)]

/-- Settles O8: each row is the opcode and format of its operation, and the decoder checks that format's length. -/
theorem lengthCheckOfEachFormat : Obligations.LengthCheckOfEachFormat := by
  intro b o F v hrow
  obtain ⟨rfl, rfl, rfl⟩ := row_eq_of_mem_rows hrow
  refine ⟨badLength_opcode o, fun tl hl hfit => ⟨_, decode_of_lengthFits o tl hl hfit, assemble_op o _, ?_, ?_⟩⟩
  · intro hv
    rw [assemble_variablePart, if_pos hv]
  · intro hv
    simp [assemble_variablePart, hv]

end Sys2Proof
end

section
/-! Operands read with the `MemRead` of R9 (30_encoding.md R84). Each field lies inside the first `F` bytes, and the
length check gives every accepted request that many. -/

namespace Sys2Proof

theorem memRead_eq_bytes (s : Bytes) (o n : Nat) (h : o + n ≤ s.length) :
    memRead s o n = some ((List.range n).map (fun k => byteAt s (o + k))) := by
  rw [memRead, if_pos h, slice_eq_bytes s o n h]

section
variable {s : Bytes} {F o : Nat} (hlen : F ≤ s.length)
include hlen

theorem memRead_macAt (ho : o + 6 ≤ F) : memRead s o 6 = some (macAt s o).bytes :=
  memRead_eq_bytes s o 6 (ho.trans hlen)

theorem memRead_ipaAt (ho : o + 4 ≤ F) : memRead s o 4 = some (ipaAt s o).bytes :=
  memRead_eq_bytes s o 4 (ho.trans hlen)

theorem memRead_byteAt (ho : o + 1 ≤ F) : memRead s o 1 = some [byteAt s o] :=
  memRead_eq_bytes s o 1 (ho.trans hlen)

end

/-- Settles O5, one format at a time: `assemble` reads each operand at its offset, inside the fixed part. -/
theorem operandsStandAtTheirOffsets : Obligations.OperandsStandAtTheirOffsets := by
  intro req i hd
  obtain ⟨-, o, -, -, hok, rfl⟩ := decode_eq_instr hd
  have hlen := fixedLen_le_of_lengthOk hok
  cases o with
  | mgrInit | mgrProcessEvents | mgrGetStats => trivial
  | macEq | ethAccept => exact ⟨memRead_macAt hlen (by decide), memRead_macAt hlen (by decide)⟩
  | macIsBcast | macIsNull => exact memRead_macAt hlen (by decide)
  | ipaEq => exact ⟨memRead_ipaAt hlen (by decide), memRead_ipaAt hlen (by decide)⟩
  | ipaIsBcast | ipaIsNull => exact memRead_ipaAt hlen (by decide)
  | ethEnc => exact ⟨memRead_macAt hlen (by decide), memRead_macAt hlen (by decide), rfl, rfl⟩
  | ipEnc =>
    exact ⟨memRead_ipaAt hlen (by decide), memRead_ipaAt hlen (by decide), memRead_byteAt hlen (by decide), rfl⟩
  | ipDispatch => exact memRead_byteAt hlen (by decide)
  | udpEnc => exact ⟨rfl, rfl, rfl, rfl, rfl⟩
  | ethDec | ipDec | udpDec | udpSend | udpRecv => rfl
  | tcpCreate => exact ⟨rfl, rfl⟩
  | tcpClose => exact idAt_eq_be32 req 1
  | tcpSend | tcpRecv => exact ⟨idAt_eq_be32 req 1, rfl⟩

end Sys2Proof
end

section
/-! EtherTypes (30_encoding.md R75) and the frame filter with the block's own address (R99, 41_ethernet.md R124). -/

namespace Sys2Proof.Machine

@[simp] theorem EtherType.ofWire_code (e : EtherType) : EtherType.ofWire e.code = e := by cases e <;> rfl

theorem etnorm_of_recognised {w : Half} (h : w = 0x0800 ∨ w = 0x86DD ∨ w = 0x0806) : etnorm w = w := by
  obtain rfl | rfl | rfl := h <;> rfl

theorem etnorm_of_unrecognised {w : Half} (h : ¬ (w = 0x0800 ∨ w = 0x86DD ∨ w = 0x0806)) : etnorm w = 0x0000 := by
  obtain ⟨h4, h6, harp⟩ := by simpa only [not_or] using h
  rw [etnorm, EtherType.ofWire, if_neg h4, if_neg h6, if_neg harp]
  rfl

/-- Settles O18, by the branches of `EtherType.ofWire`. -/
theorem etherTypeIsNormalised : Obligations.EtherTypeIsNormalised :=
  ⟨fun _ => etnorm_of_recognised, fun _ => etnorm_of_unrecognised, EtherType.ofWire_code⟩

theorem macEq_eq_true_iff (a b : Mac) : macEq a b = true ↔ a = b := by
  cases a
  cases b
  simp [macEq, Mac.bytes]

theorem macIsBcast_eq_true_iff (a : Mac) :
    macIsBcast a = true ↔ a = ⟨0xFF, 0xFF, 0xFF, 0xFF, 0xFF, 0xFF⟩ := by
  cases a
  simp [macIsBcast, Mac.bytes]

/-- R124: a frame is accepted exactly when it is broadcast or for the local address. -/
theorem ethAccepts_eq_true_iff (dst loc : Mac) :
    ethAccepts dst loc = true ↔ dst = ⟨0xFF, 0xFF, 0xFF, 0xFF, 0xFF, 0xFF⟩ ∨ dst = loc := by
  rw [ethAccepts, Bool.or_eq_true, macIsBcast_eq_true_iff, macEq_eq_true_iff]

theorem truthByte_eq_one_or_zero (b : Bool) : truthByte b = 0x01 ∨ truthByte b = 0x00 := by cases b <;> decide

theorem truthByte_eq_one_iff (b : Bool) : truthByte b = 0x01 ↔ b = true := by cases b <;> decide

theorem encode_ethAccept (dst loc : Mac) : encode (.ethAccept dst loc) = 0x22 :: (dst.bytes ++ loc.bytes) := rfl

theorem exec_ethAccept (dst loc : Mac) (s : State) :
    exec (.ethAccept dst loc) s = .next { s with rsp := some [0x00, truthByte (ethAccepts dst loc)] } := rfl

/-- Settles O22: the pseudo-instruction is the ETH.ACCEPT of `dst` and `LOCAL_MAC`. -/
theorem ethAcceptLocalUsesLocalMac : Obligations.EthAcceptLocalUsesLocalMac := fun s dst =>
  ⟨encode_ethAccept dst s.localMac, truthByte (ethAccepts dst s.localMac), exec_ethAccept dst s.localMac s,
    truthByte_eq_one_or_zero _, (truthByte_eq_one_iff _).trans (ethAccepts_eq_true_iff dst s.localMac)⟩

end Sys2Proof.Machine
end

section
/-! The address comparator (40_address_compare.md R110 to R117). The six predicates test every byte of their operands,
over the six bytes of a MAC address or the four of an IP address, so each fact is proved once for both lengths. -/

namespace Sys2Proof

open Machine Spec

theorem all_beq_iff_byteAt (s : Bytes) (c : Byte) :
    s.all (· == c) = true ↔ ∀ k < s.length, byteAt s k = c := by
  rw [List.all_eq_true, List.forall_mem_iff_forall_getElem]
  exact forall₂_congr fun k hk => by rw [beq_iff_eq, byteAt_eq_getElem s k hk]

/-- R110 and R114: byte strings of one length agree pairwise exactly when they agree position by position. -/
theorem zip_all_beq_iff_byteAt (s t : Bytes) (hlen : s.length = t.length) :
    (s.zip t).all (fun p => p.1 == p.2) = true ↔ ∀ k < s.length, byteAt s k = byteAt t k := by
  have hzip : (s.zip t).length = s.length := by simp [hlen]
  have hat (k : Nat) (hk : k < (s.zip t).length) :
      ((s.zip t)[k].1 == (s.zip t)[k].2) = true ↔ byteAt s k = byteAt t k := by
    have hks : k < s.length := hzip ▸ hk
    rw [beq_iff_eq, List.getElem_zip, byteAt_eq_getElem s k hks, byteAt_eq_getElem t k (hlen ▸ hks)]
  rw [List.all_eq_true, List.forall_mem_iff_forall_getElem, forall₂_congr hat, hzip]

/-- R82: the answer of a predicate whose value decides `P`. -/
theorem answerTruth_of_iff {b : Bool} {P : Prop} (h : b = true ↔ P) (s : State) :
    (P → answerTruth b s = .next { s with rsp := some [0x00, 0x01] }) ∧
    (¬ P → answerTruth b s = .next { s with rsp := some [0x00, 0x00] }) := by
  cases b with
  | true => exact ⟨fun _ => rfl, fun hP => absurd (h.1 rfl) hP⟩
  | false => exact ⟨fun hP => absurd (h.2 hP) Bool.false_ne_true, fun _ => rfl⟩

/-- A message that passes an operation's length check is the request of the instruction assembled from it, when the
encoder writes that instruction as this message. -/
theorem isRequestOf_of_assemble {o : Op} {tl : Bytes} {i : Instr}
    (hfit : o.format.lengthOk (o.opcode :: tl).length = true) (hasm : assemble o (o.opcode :: tl) = i)
    (henc : encode i = o.opcode :: tl) : IsRequestOf (o.opcode :: tl) i :=
  ⟨henc, fun hl => hasm ▸ decode_of_lengthFits o tl hl ((lengthOk_iff_lengthFits _ _).1 hfit)⟩

/-- R83: for a format without a variable part every length but `F` is bad. -/
theorem badLength_of_fixed {o : Op} (hv : o.format.hasVariable = false) :
    BadLength o.opcode (· ≠ o.format.fixedLen) := by
  intro s tl rest hs hl hne
  refine badLength_opcode o s tl rest hs hl fun hfit => ?_
  obtain ⟨hvar, -⟩ | ⟨-, heq⟩ := hfit
  · exact Bool.false_ne_true (hv.symm.trans hvar)
  · exact hne heq

/-- Settles O15: each predicate compares the six bytes of its operands, and its format is a fixed one. -/
theorem macPredicatesAnswer : Obligations.MacPredicatesAnswer :=
  ⟨fun a b s => ⟨isRequestOf_of_assemble (o := .macEq) rfl rfl rfl,
      answerTruth_of_iff (zip_all_beq_iff_byteAt a.bytes b.bytes rfl) s⟩,
    fun a s => ⟨isRequestOf_of_assemble (o := .macIsBcast) rfl rfl rfl,
      answerTruth_of_iff (all_beq_iff_byteAt a.bytes 0xFF) s⟩,
    fun a s => ⟨isRequestOf_of_assemble (o := .macIsNull) rfl rfl rfl,
      answerTruth_of_iff (all_beq_iff_byteAt a.bytes 0x00) s⟩,
    badLength_of_fixed (o := .macEq) rfl, badLength_of_fixed (o := .macIsBcast) rfl,
    badLength_of_fixed (o := .macIsNull) rfl⟩

/-- Settles O16: each predicate compares the four bytes of its operands, and its format is a fixed one. -/
theorem ipaPredicatesAnswer : Obligations.IpaPredicatesAnswer :=
  ⟨fun a b s => ⟨isRequestOf_of_assemble (o := .ipaEq) rfl rfl rfl,
      answerTruth_of_iff (zip_all_beq_iff_byteAt a.bytes b.bytes rfl) s⟩,
    fun a s => ⟨isRequestOf_of_assemble (o := .ipaIsBcast) rfl rfl rfl,
      answerTruth_of_iff (all_beq_iff_byteAt a.bytes 0xFF) s⟩,
    fun a s => ⟨isRequestOf_of_assemble (o := .ipaIsNull) rfl rfl rfl,
      answerTruth_of_iff (all_beq_iff_byteAt a.bytes 0x00) s⟩,
    badLength_of_fixed (o := .ipaEq) rfl, badLength_of_fixed (o := .ipaIsBcast) rfl,
    badLength_of_fixed (o := .ipaIsNull) rfl⟩

end Sys2Proof
end

section
/-! The request of every instruction (30_encoding.md R83 to R85), and the length check of a format with a variable
part. -/

namespace Sys2Proof

open Machine Spec

/-- R83: what the encoder writes passes the length check of its operation's format. -/
theorem lengthOk_encode (i : Instr) : i.op.format.lengthOk (encode i).length = true := by
  obtain ⟨-, hlen, hfixed⟩ := Laws.EncodeShape.all i
  rw [lengthOk_iff_lengthFits, hlen]
  cases hv : i.op.format.hasVariable with
  | true => exact .inl ⟨rfl, Nat.le_add_right _ _⟩
  | false => exact .inr ⟨rfl, by rw [hfixed hv, List.length_nil, Nat.add_zero]⟩

/-- R84 and R85: the encoder writes each operand at the offset it is read from. -/
theorem assemble_encode (i : Instr) : assemble i.op (encode i) = i := by
  cases i with
  | mgrInit | mgrProcessEvents | mgrGetStats | macEq | macIsBcast | macIsNull | ipaEq | ipaIsBcast | ipaIsNull
  | ethDec | ethAccept | ipEnc | ipDec | ipDispatch | udpDec | udpSend | udpRecv => rfl
  | ethEnc dst src w p => exact congrArg (Instr.ethEnc dst src · p) (be16_enc16 w p)
  | udpEnc sport dport length checksum p =>
    have hrest : (enc16 sport ++ (enc16 dport ++ (enc16 length ++ (enc16 checksum ++ p)))).drop 8 = p := rfl
    simp [assemble, encode, Instr.op, Instr.operandBytes, hrest]
  | tcpCreate | tcpClose | tcpSend | tcpRecv =>
    simp [assemble, encode, Instr.op, Instr.operandBytes, be16_enc16_self, be32_enc32_self, List.drop_append]

/-- R83 to R85: within the transport's limit the decoder reads back what the encoder writes. -/
theorem isRequestOf_encode (i : Instr) : IsRequestOf (encode i) i :=
  isRequestOf_of_assemble (lengthOk_encode i) (assemble_encode i) rfl

/-- R83: for a format with a variable part every length below `F` is bad. -/
theorem badLength_of_variable {o : Op} (hv : o.format.hasVariable = true) :
    BadLength o.opcode (· < o.format.fixedLen) := by
  intro s tl rest hs hl hshort
  refine badLength_opcode o s tl rest hs hl fun hfit => ?_
  obtain ⟨-, hle⟩ | ⟨hfixed, -⟩ := hfit
  · exact Nat.not_lt.2 hle hshort
  · exact Bool.false_ne_true (hfixed.symm.trans hv)

end Sys2Proof
end

section
/-! The Ethernet operations (41_ethernet.md R120 to R125). -/

namespace Sys2Proof.Machine

open Spec

/-- R122: the first 12 bytes of a frame are its two addresses. -/
theorem macAt_append_macAt_eq_take {b : Bytes} (h : 12 ≤ b.length) :
    (macAt b 0).bytes ++ (macAt b 6).bytes = b.take 12 := (take_eq_bytes b 12 h).symm

theorem ethDecode_of_lt {b : Bytes} (h : b.length < 14) : ethDecode b = none := if_pos h

theorem ethDecode_of_gt {b : Bytes} (h : 1514 < b.length) : ethDecode b = none := by
  have hlong : 1500 < b.length - 14 := by omega
  rw [ethDecode, if_neg (by omega : ¬ b.length < 14), if_pos hlong]

theorem ethDecode_of_le {b : Bytes} (hlo : 14 ≤ b.length) (hhi : b.length ≤ 1514) :
    ethDecode b = some ⟨macAt b 0, macAt b 6, .ofWire (be16 b 12), b.drop 14⟩ := by
  have hfits : ¬ 1500 < b.length - 14 := by omega
  rw [ethDecode, if_neg (Nat.not_lt.2 hlo), if_neg hfits]

theorem exec_ethDec_of_none {b : Bytes} (h : ethDecode b = none) (s : State) :
    exec (.ethDec b) s = .next { s with rsp := some [0x01] } := by
  rw [exec, execEthDec, h]
  rfl

theorem exec_ethDec_of_some {b : Bytes} {f : EthFrame} (h : ethDecode b = some f) (s : State) :
    exec (.ethDec b) s = .next { s with rsp := some (0x00 :: (f.dst.bytes ++ f.src.bytes ++ enc16 f.et.code
      ++ enc16 (BitVec.ofNat 16 f.payload.length) ++ f.payload)) } := by
  rw [exec, execEthDec, h]
  rfl

/-- Settles O20: `ethDecode` answers a frame for exactly the lengths 14 to 1514. -/
theorem ethDecAnswersTheFields : Obligations.EthDecAnswersTheFields := by
  intro b s
  refine ⟨isRequestOf_encode (.ethDec b), fun h => exec_ethDec_of_none (ethDecode_of_lt h) s,
    fun h => exec_ethDec_of_none (ethDecode_of_gt h) s, fun hlo hhi => ?_⟩
  rw [exec_ethDec_of_some (ethDecode_of_le hlo hhi), macAt_append_macAt_eq_take (by omega), List.length_drop]
  rfl

/-- Settles O21: ETH.ACCEPT answers the truth byte of R124's test, and its format is a fixed one. -/
theorem ethAcceptAnswers : Obligations.EthAcceptAnswers :=
  ⟨fun dst loc s => ⟨isRequestOf_encode (.ethAccept dst loc), answerTruth_of_iff (ethAccepts_eq_true_iff dst loc) s⟩,
    badLength_of_fixed (o := .ethAccept) rfl⟩

/-- R121: the answer is the encoded frame, its EtherType normalised. -/
theorem exec_ethEnc (dst src : Mac) (w : Half) (p : Bytes) (s : State) :
    exec (.ethEnc dst src w p) s
      = .next { s with rsp := some (0x00 :: ethEncode ⟨dst, src, .ofWire w, p⟩) } := rfl

/-- R120: the length of an encoded frame. -/
theorem ethEncode_length (f : EthFrame) : (ethEncode f).length = 14 + min f.payload.length 1500 := by
  simp +arith [ethEncode, Nat.min_comm]

/-- Settles O19: the answer is the encoded frame, and the format has a variable part. -/
theorem ethEncAnswersTheFrame : Obligations.EthEncAnswersTheFrame :=
  ⟨fun dst src w p s => ⟨isRequestOf_encode (.ethEnc dst src w p), exec_ethEnc dst src w p s,
      ethEncode_length ⟨dst, src, .ofWire w, p⟩⟩,
    badLength_of_variable (o := .ethEnc) rfl⟩

end Sys2Proof.Machine
end

section
/-! The IP operations (42_ip.md R130 to R135). -/

namespace Sys2Proof

/-- R84: an IP address field is its four bytes. -/
theorem ipaAt_bytes_eq_slice {b : Bytes} {o : Nat} (h : o + 4 ≤ b.length) : (ipaAt b o).bytes = slice b o 4 :=
  (slice_eq_bytes b o 4 h).symm

theorem singleton_byteAt_eq_slice {b : Bytes} {o : Nat} (h : o + 1 ≤ b.length) : [byteAt b o] = slice b o 1 :=
  (slice_eq_bytes b o 1 h).symm

end Sys2Proof

namespace Sys2Proof.Machine

open Spec

theorem ipDecode_of_lt {b : Bytes} (h : b.length < 20) : ipDecode b = none := if_pos h

theorem ipDecode_of_gt {b : Bytes} (h : 1500 < b.length) : ipDecode b = none := by
  have hlong : 1480 < b.length - 20 := by omega
  rw [ipDecode, if_neg (by omega : ¬ b.length < 20), if_pos hlong]

theorem ipDecode_of_le {b : Bytes} (hlo : 20 ≤ b.length) (hhi : b.length ≤ 1500) :
    ipDecode b = some ⟨ipaAt b 12, ipaAt b 16, byteAt b 9, b.drop 20⟩ := by
  have hfits : ¬ 1480 < b.length - 20 := by omega
  rw [ipDecode, if_neg (Nat.not_lt.2 hlo), if_neg hfits]

theorem exec_ipDec_of_none {b : Bytes} (h : ipDecode b = none) (s : State) :
    exec (.ipDec b) s = .next { s with rsp := some [0x01] } := by
  rw [exec, execIpDec, h]
  rfl

theorem exec_ipDec_of_some {b : Bytes} {p : IpPacket} (h : ipDecode b = some p) (s : State) :
    exec (.ipDec b) s = .next { s with rsp := some (0x00 :: (p.src.bytes ++ p.dst.bytes ++ [p.proto]
      ++ enc16 (BitVec.ofNat 16 p.payload.length) ++ p.payload)) } := by
  rw [exec, execIpDec, h]
  rfl

/-- Settles O25: `ipDecode` answers a packet for exactly the lengths 20 to 1500, and its fields are substrings. -/
theorem ipDecAnswersTheFields : Obligations.IpDecAnswersTheFields := by
  intro b s
  refine ⟨isRequestOf_encode (.ipDec b), fun h => exec_ipDec_of_none (ipDecode_of_lt h) s,
    fun h => exec_ipDec_of_none (ipDecode_of_gt h) s, fun hlo hhi => ?_⟩
  rw [exec_ipDec_of_some (ipDecode_of_le hlo hhi), ipaAt_bytes_eq_slice (by omega), ipaAt_bytes_eq_slice (by omega),
    singleton_byteAt_eq_slice (by omega), List.length_drop]

/-- R134: the dispatcher selects each transport by its number. -/
@[simp] theorem ipDispatch_number (t : Transport) : ipDispatch t.number = some t := by cases t <;> rfl

/-- R76: the numbers of the three transports. -/
theorem exists_number_eq_of_recognised {proto : Byte} (h : proto = 1 ∨ proto = 6 ∨ proto = 17) :
    ∃ t : Transport, t.number = proto := by
  obtain rfl | rfl | rfl := h
  · exact ⟨.icmp, rfl⟩
  · exact ⟨.tcp, rfl⟩
  · exact ⟨.udp, rfl⟩

theorem ipDispatch_of_unrecognised {proto : Byte} (h : ¬ (proto = 1 ∨ proto = 6 ∨ proto = 17)) :
    ipDispatch proto = none := by
  obtain ⟨hicmp, htcp, hudp⟩ := by simpa only [not_or] using h
  rw [ipDispatch, if_neg hicmp, if_neg htcp, if_neg hudp]

/-- R135: a recognised number is repeated in the answer. -/
theorem exec_ipDispatch_number (t : Transport) (s : State) :
    exec (.ipDispatch t.number) s = .next { s with rsp := some [0x00, t.number] } := by
  rw [exec, execIpDispatch, ipDispatch_number]
  rfl

theorem exec_ipDispatch_of_none {proto : Byte} (h : ipDispatch proto = none) (s : State) :
    exec (.ipDispatch proto) s = .next { s with rsp := some [0x01] } := by
  rw [exec, execIpDispatch, h]
  rfl

theorem exec_ipDispatch_of_recognised {proto : Byte} (h : proto = 1 ∨ proto = 6 ∨ proto = 17) (s : State) :
    exec (.ipDispatch proto) s = .next { s with rsp := some [0x00, proto] } := by
  obtain ⟨t, rfl⟩ := exists_number_eq_of_recognised h
  exact exec_ipDispatch_number t s

/-- Settles O26: the recognised numbers are those of the three transports, and the format is a fixed one. -/
theorem ipDispatchAnswers : Obligations.IpDispatchAnswers :=
  ⟨fun proto s => ⟨isRequestOf_encode (.ipDispatch proto), fun h => exec_ipDispatch_of_recognised h s,
      fun h => exec_ipDispatch_of_none (ipDispatch_of_unrecognised h) s⟩,
    badLength_of_fixed (o := .ipDispatch) rfl⟩

/-- R74: the three fields stand at their offsets between filler bytes 0x00. -/
theorem ipHeader_eq (src dst : Ipa) (proto : Byte) :
    ipHeader src dst proto = List.replicate 9 0x00 ++ [proto] ++ [0x00, 0x00] ++ src.bytes ++ dst.bytes := rfl

@[simp] theorem ipHeader_length (src dst : Ipa) (proto : Byte) : (ipHeader src dst proto).length = 20 := rfl

/-- R130: the length of an encoded packet. -/
theorem ipEncode_length (p : IpPacket) : (ipEncode p).length = 20 + min p.payload.length 1480 := by
  rw [ipEncode, List.length_append, ipHeader_length, List.length_take, Nat.min_comm]

/-- R131: the answer is the encoded packet. -/
theorem exec_ipEnc (src dst : Ipa) (proto : Byte) (p : Bytes) (s : State) :
    exec (.ipEnc src dst proto p) s = .next { s with rsp := some (0x00 :: ipEncode ⟨src, dst, proto, p⟩) } := rfl

/-- Settles O24: the answer is the encoded packet, and the format has a variable part. -/
theorem ipEncAnswersThePacket : Obligations.IpEncAnswersThePacket := by
  refine ⟨fun src dst proto p s => ?_, badLength_of_variable (o := .ipEnc) rfl⟩
  rw [← ipHeader_eq]
  exact ⟨isRequestOf_encode (.ipEnc src dst proto p), exec_ipEnc src dst proto p s,
    ipEncode_length ⟨src, dst, proto, p⟩⟩

end Sys2Proof.Machine
end

section
/-! The UDP operations (43_udp.md R140 to R145). -/

namespace Sys2Proof.Machine

open Spec

/-- R142: the first 8 bytes of a datagram are its four header fields. -/
theorem enc16_be16_fields_eq_take {b : Bytes} (h : 8 ≤ b.length) :
    enc16 (be16 b 0) ++ enc16 (be16 b 2) ++ enc16 (be16 b 4) ++ enc16 (be16 b 6) = b.take 8 := by
  rw [take_eq_bytes b 8 h, enc16_be16, enc16_be16, enc16_be16, enc16_be16]
  rfl

theorem udpDecode_of_lt {b : Bytes} (h : b.length < 8) : udpDecode b = none := if_pos h

theorem udpDecode_of_gt {b : Bytes} (h : 1480 < b.length) : udpDecode b = none := by
  have hlong : 1472 < b.length - 8 := by omega
  rw [udpDecode, if_neg (by omega : ¬ b.length < 8), if_pos hlong]

theorem udpDecode_of_le {b : Bytes} (hlo : 8 ≤ b.length) (hhi : b.length ≤ 1480) :
    udpDecode b = some ⟨be16 b 0, be16 b 2, be16 b 4, be16 b 6, b.drop 8⟩ := by
  have hfits : ¬ 1472 < b.length - 8 := by omega
  rw [udpDecode, if_neg (Nat.not_lt.2 hlo), if_neg hfits]

theorem exec_udpDec_of_none {b : Bytes} (h : udpDecode b = none) (s : State) :
    exec (.udpDec b) s = .next { s with rsp := some [0x01] } := by
  rw [exec, execUdpDec, h]
  rfl

theorem exec_udpDec_of_some {b : Bytes} {d : UdpDatagram} (h : udpDecode b = some d) (s : State) :
    exec (.udpDec b) s = .next { s with rsp := some (0x00 :: (enc16 d.sport ++ enc16 d.dport ++ enc16 d.length
      ++ enc16 d.checksum ++ enc16 (BitVec.ofNat 16 d.payload.length) ++ d.payload)) } := by
  rw [exec, execUdpDec, h]
  rfl

/-- Settles O30: `udpDecode` answers a datagram for exactly the lengths 8 to 1480, its header as read. -/
theorem udpDecAnswersTheFields : Obligations.UdpDecAnswersTheFields := by
  intro b s
  refine ⟨isRequestOf_encode (.udpDec b), fun h => exec_udpDec_of_none (udpDecode_of_lt h) s,
    fun h => exec_udpDec_of_none (udpDecode_of_gt h) s, fun hlo hhi => ?_⟩
  rw [exec_udpDec_of_some (udpDecode_of_le hlo hhi), enc16_be16_fields_eq_take hlo, List.length_drop]

/-- R141: the answer is the encoded datagram. -/
theorem exec_udpEnc (sport dport length checksum : Half) (p : Bytes) (s : State) :
    exec (.udpEnc sport dport length checksum p) s
      = .next { s with rsp := some (0x00 :: udpEncode ⟨sport, dport, length, checksum, p⟩) } := rfl

/-- R140: the length of an encoded datagram. -/
theorem udpEncode_length (d : UdpDatagram) : (udpEncode d).length = 8 + min d.payload.length 1472 := by
  simp +arith [udpEncode, Nat.min_comm]

/-- Settles O29: the answer is the encoded datagram, and the format has a variable part. -/
theorem udpEncAnswersTheDatagram : Obligations.UdpEncAnswersTheDatagram :=
  ⟨fun sport dport length checksum p s => ⟨isRequestOf_encode (.udpEnc sport dport length checksum p),
      exec_udpEnc sport dport length checksum p s, udpEncode_length ⟨sport, dport, length, checksum, p⟩⟩,
    badLength_of_variable (o := .udpEnc) rfl⟩

/-- R144 and R170: UDP.SEND counts its bytes as sent behind the ready gate. -/
theorem exec_udpSend (b : Bytes) (s : State) :
    exec (.udpSend b) s = whenReady .fail (fun s => answer (.ok []) (s.countUdpSent b.length)) s := rfl

/-- R145 and R170: UDP.RECV counts its bytes as received behind the ready gate. -/
theorem exec_udpRecv (b : Bytes) (s : State) :
    exec (.udpRecv b) s = whenReady .fail (fun s => answer (.ok []) (s.countUdpReceived b.length)) s := rfl

theorem exec_udpSend_of_ready {s : State} (h : s.ready = true) (b : Bytes) :
    exec (.udpSend b) s = .next ((s.countUdpSent b.length).respond (.ok [])) := by
  rw [exec_udpSend, whenReady_of_ready h, answer]

theorem exec_udpRecv_of_ready {s : State} (h : s.ready = true) (b : Bytes) :
    exec (.udpRecv b) s = .next ((s.countUdpReceived b.length).respond (.ok [])) := by
  rw [exec_udpRecv, whenReady_of_ready h, answer]

theorem exec_udpSend_of_unready {s : State} (h : s.ready = false) (b : Bytes) :
    exec (.udpSend b) s = .next (s.respond .fail) := by
  rw [exec_udpSend, whenReady_of_unready h, answer]

theorem exec_udpRecv_of_unready {s : State} (h : s.ready = false) (b : Bytes) :
    exec (.udpRecv b) s = .next (s.respond .fail) := by
  rw [exec_udpRecv, whenReady_of_unready h, answer]

/-- Settles O32: the ready flag decides between the count and FAIL. -/
theorem udpSendAndRecvCount : Obligations.UdpSendAndRecvCount := fun b _ =>
  ⟨isRequestOf_encode (.udpSend b), isRequestOf_encode (.udpRecv b),
    fun h => exec_udpSend_of_ready h b, fun h => exec_udpRecv_of_ready h b,
    fun h => ⟨exec_udpSend_of_unready h b, exec_udpRecv_of_unready h b⟩⟩

end Sys2Proof.Machine
end

section
/-! The TCP connection table (44_tcp_table.md R150 to R156). -/

namespace Sys2Proof

/-- R82 and R150: an id below 256 is answered in its last byte. -/
theorem encId_ofNat_of_lt {n : Nat} (h : n < 256) :
    encId (BitVec.ofNat Config.idW n) = [0x00, 0x00, 0x00, BitVec.ofNat 8 n] := by
  have hid : (BitVec.ofNat Config.idW n).toNat = n := Nat.mod_eq_of_lt (h.trans (by decide))
  have hhigh : n / 256 = 0 := Nat.div_eq_of_lt h
  simp [encId, encNat, hid, hhigh, -encId_eq_enc32]

theorem encode_tcpClose (id : ConnId) : encode (.tcpClose id) = 0x51 :: enc32 id :=
  congrArg (0x51 :: ·) (encId_eq_enc32 id)

theorem encode_tcpSend (id : ConnId) (d : Bytes) : encode (.tcpSend id d) = 0x52 :: (enc32 id ++ d) :=
  congrArg (0x52 :: · ++ d) (encId_eq_enc32 id)

theorem encode_tcpRecv (id : ConnId) (cap : Half) : encode (.tcpRecv id cap) = 0x53 :: (enc32 id ++ enc16 cap) :=
  congrArg (0x53 :: · ++ enc16 cap) (encId_eq_enc32 id)

end Sys2Proof

namespace Sys2Proof.Machine

open Spec

/-- R170: the gate is shut, or the operation behind it answers what the shut gate does. -/
theorem whenReady_eq_answer {s : State} {closed : Response} {run : State → Result}
    (h : s.ready = true → run s = answer closed s) : whenReady closed run s = answer closed s := by
  cases hr : s.ready with
  | true => rw [whenReady_of_ready hr, h hr]
  | false => exact whenReady_of_unready hr closed run

/-- R153: the three reasons why a forwarding call reaches no live connection. -/
theorem no_liveConn_clauses {s : State} {id : ConnId} {P : Prop}
    (h : (s.ready = true → s.liveConn id = none) → P) :
    (s.ready = false → P) ∧ (64 ≤ id.toNat → P) ∧
    (∀ k : Fin 64, id.toNat = k.val → s.slots[k] = none → P) := by
  refine ⟨fun hr => h fun hready => ?_, fun hge => h fun _ => ?_, fun k hk hempty => h fun _ => ?_⟩
  · exact absurd (hr.symm.trans hready) Bool.false_ne_true
  · exact State.liveConn_eq_none.2 fun k hk => absurd (hk ▸ k.isLt) (Nat.not_lt.2 hge)
  · exact State.liveConn_eq_none.2 fun j hj => Fin.ext (hk.symm.trans hj) ▸ hempty

/-! ### TCP.CREATE -/

/-- R150: with the gate shut or the table full the create fails. -/
theorem exec_tcpCreate_of_no_free {s : State} (h : s.ready = true → s.firstFree = none) (lport rport : Half) :
    exec (.tcpCreate lport rport) s = .next (s.respond .fail) := by
  rw [exec, execTcpCreate]
  exact whenReady_eq_answer fun hr => by simp only [h hr]

/-- R150: the slot the scan finds is taken and its index is the id answered. -/
theorem exec_tcpCreate_of_free {s : State} {k : Fin Config.tcpSlots} (hr : s.ready = true)
    (hk : s.firstFree = some k) (lport rport : Half) :
    exec (.tcpCreate lport rport) s = .next ((s.setSlot k (some ⟨lport, rport, []⟩)).respond
      (.ok [0x00, 0x00, 0x00, BitVec.ofNat 8 k.val])) := by
  simp only [exec, execTcpCreate, whenReady_of_ready hr, hk, answer, encId_ofNat_of_lt (k.isLt.trans (by decide))]

/-- Settles O33: the scan finds the smallest Empty slot, or none in a full table. -/
theorem tcpCreateTakesTheSmallestFreeSlot : Obligations.TcpCreateTakesTheSmallestFreeSlot := by
  refine ⟨fun lport rport s => ⟨isRequestOf_encode (.tcpCreate lport rport), fun hr => ?_, fun _ hfull => ?_,
    fun hr k hk hlt => ?_⟩, badLength_of_fixed (o := .tcpCreate) rfl⟩
  · exact exec_tcpCreate_of_no_free (fun h => absurd (hr.symm.trans h) Bool.false_ne_true) lport rport
  · exact exec_tcpCreate_of_no_free (fun _ => State.firstFree_eq_none.2 hfull) lport rport
  · exact exec_tcpCreate_of_free hr (State.firstFree_eq_some.2 ⟨hk, hlt⟩) lport rport

/-! ### TCP.CLOSE -/

/-- R152: no live connection, nothing to close. -/
theorem exec_tcpClose_of_no_liveConn {s : State} {id : ConnId} (h : s.ready = true → s.liveConn id = none) :
    exec (.tcpClose id) s = .next (s.respond .fail) := by
  rw [exec, execTcpClose]
  exact whenReady_eq_answer fun hr => by simp only [h hr]

/-- R152: the slot of the live connection becomes Empty. -/
theorem exec_tcpClose_of_liveConn {s : State} {id : ConnId} {k : Fin Config.tcpSlots} {c : Conn}
    (hr : s.ready = true) (hlive : s.liveConn id = some (k, c)) :
    exec (.tcpClose id) s = .next ((s.setSlot k none).respond (.ok [])) := by
  simp only [exec, execTcpClose, whenReady_of_ready hr, hlive, answer]

/-- Settles O34: the id names the live connection of its slot, or none. -/
theorem tcpCloseVacatesTheSlot : Obligations.TcpCloseVacatesTheSlot := by
  refine ⟨fun id s => ?_, badLength_of_fixed (o := .tcpClose) rfl⟩
  obtain ⟨hunready, hbadId, hempty⟩ := no_liveConn_clauses (exec_tcpClose_of_no_liveConn (s := s) (id := id))
  exact ⟨encode_tcpClose id ▸ isRequestOf_encode (.tcpClose id), hunready, hbadId, hempty,
    fun hr k c hk hc => exec_tcpClose_of_liveConn hr (State.liveConn_eq_some.2 ⟨hk, hc⟩)⟩

/-! ### TCP.SEND -/

/-- R154: no live connection, nothing is counted. -/
theorem exec_tcpSend_of_no_liveConn {s : State} {id : ConnId} (d : Bytes)
    (h : s.ready = true → s.liveConn id = none) :
    exec (.tcpSend id d) s = .next (s.respond .fail) := by
  rw [exec, execTcpSend]
  exact whenReady_eq_answer fun hr => by simp only [h hr]

/-- R154: the send is counted whatever the connection holds. -/
theorem exec_tcpSend_of_liveConn {s : State} {id : ConnId} {k : Fin Config.tcpSlots} {c : Conn} (d : Bytes)
    (hr : s.ready = true) (hlive : s.liveConn id = some (k, c)) :
    exec (.tcpSend id d) s = .next ((s.countTcpSent d.length).respond (.ok [])) := by
  simp only [exec, execTcpSend, whenReady_of_ready hr, hlive, answer]

/-- Settles O35: on a live connection the two additions of `countTcpSent`. -/
theorem tcpSendCounts : Obligations.TcpSendCounts := by
  refine ⟨fun id d s => ?_, badLength_of_variable (o := .tcpSend) rfl⟩
  obtain ⟨hunready, hbadId, hempty⟩ := no_liveConn_clauses (exec_tcpSend_of_no_liveConn (s := s) (id := id) d)
  exact ⟨encode_tcpSend id d ▸ isRequestOf_encode (.tcpSend id d), hunready, hbadId, hempty,
    fun hr k c hk hc => exec_tcpSend_of_liveConn d hr (State.liveConn_eq_some.2 ⟨hk, hc⟩)⟩

/-! ### TCP.RECV -/

/-- R156: no live connection answers the sentinel, status OK with count 0. -/
theorem exec_tcpRecv_of_no_liveConn {s : State} {id : ConnId} (cap : Half)
    (h : s.ready = true → s.liveConn id = none) :
    exec (.tcpRecv id cap) s = .next (s.respond (.ok [0x00, 0x00])) := by
  rw [exec, execTcpRecv]
  exact whenReady_eq_answer fun hr => by simp only [h hr]

theorem exec_tcpRecv_of_liveConn {s : State} {id : ConnId} {k : Fin Config.tcpSlots} {c : Conn} (cap : Half)
    (hr : s.ready = true) (hlive : s.liveConn id = some (k, c)) :
    exec (.tcpRecv id cap) s = receiveFrom k c cap s := by
  simp only [exec, execTcpRecv, whenReady_of_ready hr, hlive]

/-- R156: with nothing to copy the answer is the sentinel and nothing changes. -/
theorem receiveFrom_of_min_eq_zero {s : State} {k : Fin Config.tcpSlots} {c : Conn} {cap : Half}
    (hc : s.slots[k] = some c) (hn : min c.rxq.length cap.toNat = 0) :
    receiveFrom k c cap s = .next (s.respond (.ok [0x00, 0x00])) := by
  rw [receiveFrom_eq s k c cap hc, hn]
  rfl

/-- R156: `n` bytes leave the front of the queue and are counted. -/
theorem receiveFrom_of_min_pos {s : State} {k : Fin Config.tcpSlots} {c : Conn} {cap : Half} {n : Nat}
    (hc : s.slots[k] = some c) (hn : n = min c.rxq.length cap.toNat) (hpos : 0 < n) :
    receiveFrom k c cap s = .next (((s.setSlot k (some { c with rxq := c.rxq.drop n })).countTcpReceived n).respond
      (.ok (enc16 (BitVec.ofNat 16 n) ++ c.rxq.take n))) := by
  rw [receiveFrom_eq s k c cap hc, ← hn]
  simp only [hpos, if_true, answer]

/-- Settles O37: on a live connection by whether a byte moves. -/
theorem tcpRecvMovesQueuedBytes : Obligations.TcpRecvMovesQueuedBytes := by
  refine ⟨fun id cap s => ?_, badLength_of_fixed (o := .tcpRecv) rfl⟩
  obtain ⟨hunready, hbadId, hempty⟩ := no_liveConn_clauses (exec_tcpRecv_of_no_liveConn (s := s) (id := id) cap)
  refine ⟨encode_tcpRecv id cap ▸ isRequestOf_encode (.tcpRecv id cap), hunready, hbadId, hempty,
    fun hr k c hk hc hn => ?_, fun hr k c n hk hc hn hpos => ?_⟩
  · exact (exec_tcpRecv_of_liveConn cap hr (State.liveConn_eq_some.2 ⟨hk, hc⟩)).trans
      (receiveFrom_of_min_eq_zero hc hn)
  · exact (exec_tcpRecv_of_liveConn cap hr (State.liveConn_eq_some.2 ⟨hk, hc⟩)).trans
      (receiveFrom_of_min_pos hc hn hpos)

end Sys2Proof.Machine
end

section
/-! The manager's own operations (45_manager.md R165 to R168). -/

namespace Sys2Proof

@[simp] theorem be64_cons_succ (b : Byte) (s : Bytes) (o : Nat) : be64 (b :: s) (o + 1) = be64 s o := rfl

theorem flatMap_encCtr_length (l : List Ctr) : (l.flatMap encCtr).length = 8 * l.length := by
  simp [Nat.mul_comm]

/-- R168: in a string of 8-byte counters, counter `k` stands at offset `8k`. -/
theorem be64_flatMap_encCtr {l : List Ctr} {k : Nat} {c : Ctr} (h : l[k]? = some c) (s : Bytes) :
    be64 (l.flatMap encCtr ++ s) (8 * k) = c := by
  induction l generalizing k with
  | nil => simp at h
  | cons d l ih =>
    rw [List.flatMap_cons, encCtr_eq_enc64, List.append_assoc]
    cases k with
    | zero =>
      obtain rfl : d = c := by simpa using h
      exact be64_enc64 d _
    | succ k =>
      rw [Nat.mul_succ, Nat.add_comm, ← enc64_length d, be64_append_right]
      exact ih (by simpa using h)

end Sys2Proof

namespace Sys2Proof.Machine

open Spec

/-- R167: the number of Occupied slots, counted over their indices. -/
theorem State.active_eq_countP_finRange (s : State) :
    s.active = (List.finRange Config.tcpSlots).countP (fun k => (s.slots[k]).isSome) := by
  have hslots : s.slots.toList = (List.finRange Config.tcpSlots).map (fun k => s.slots[k]) :=
    List.ext_getElem (by simp) (by simp)
  rw [State.active, hslots, List.countP_map]
  rfl

@[simp] theorem Counters.inOrder_length (c : Counters) : c.inOrder.length = 16 := rfl

@[simp] theorem snapshot_length (s : State) : (snapshot s).length = 132 := by
  rw [snapshot, List.length_append, flatMap_encCtr_length, Counters.inOrder_length, enc32_length]

/-- R168: counter `k` of R28's order in the snapshot. -/
theorem be64_snapshot {s : State} {k : Nat} {c : Ctr} (h : s.ctr.inOrder[k]? = some c) :
    be64 (snapshot s) (8 * k) = c :=
  be64_flatMap_encCtr h _

/-- R168: the active count stands behind the sixteen counters. -/
theorem be32_snapshot_toNat (s : State) : (be32 (snapshot s) 128).toNat = s.active := by
  have hread : be32 (snapshot s) (128 + 0) = be32 (enc32 (BitVec.ofNat 32 s.active)) 0 := by
    have hlen : (s.ctr.inOrder.flatMap encCtr).length = 128 := by
      rw [flatMap_encCtr_length, Counters.inOrder_length]
    rw [snapshot, ← hlen, be32_append_right]
  have hle := s.active_le
  rw [hread, be32_enc32_self, BitVec.toNat_ofNat, Nat.mod_eq_of_lt (by omega)]

theorem exec_mgrInit (s : State) : exec .mgrInit s = .next (s.setReady.respond (.ok [])) := rfl

theorem exec_mgrProcessEvents (s : State) : exec .mgrProcessEvents s = .next (s.respond (.ok [])) := rfl

theorem exec_mgrGetStats_of_ready {s : State} (h : s.ready = true) :
    exec .mgrGetStats s = .next (s.respond (.ok (snapshot s))) := by
  rw [exec, execMgrGetStats, whenReady_of_ready h, answer]

theorem exec_mgrGetStats_of_unready {s : State} (h : s.ready = false) :
    exec .mgrGetStats s = .next (s.respond (.ok (List.replicate 132 0x00))) := by
  rw [exec, execMgrGetStats, whenReady_of_unready h, answer]
  rfl

/-- Settles O41: MGR.INIT is `setReady` with an OK, MGR.PROCESS_EVENTS the OK alone, and both formats are fixed ones. -/
theorem initAndProcessEventsAnswer : Obligations.InitAndProcessEventsAnswer :=
  ⟨exec_mgrInit, exec_mgrProcessEvents, isRequestOf_encode .mgrInit, isRequestOf_encode .mgrProcessEvents,
    badLength_of_fixed (o := .mgrInit) rfl, badLength_of_fixed (o := .mgrProcessEvents) rfl⟩

/-- Settles O42: on a ready block the fields are read out of the snapshot, one byte behind the status. -/
theorem getStatsAnswersTheSnapshot : Obligations.GetStatsAnswersTheSnapshot := by
  refine ⟨isRequestOf_encode .mgrGetStats, badLength_of_fixed (o := .mgrGetStats) rfl,
    fun s hr => exec_mgrGetStats_of_unready hr, fun s hr => ?_⟩
  have hctr (k : Nat) {c : Ctr} (hk : s.ctr.inOrder[k]? = some c) : be64 (0x00 :: snapshot s) (8 * k + 1) = c := by
    rw [be64_cons_succ, be64_snapshot hk]
  have hactive : (be32 (0x00 :: snapshot s) (128 + 1)).toNat
      = (List.finRange 64).countP (fun k => (s.slots[k]).isSome) := by
    rw [be32_cons_succ, be32_snapshot_toNat, s.active_eq_countP_finRange]
  exact ⟨0x00 :: snapshot s, exec_mgrGetStats_of_ready hr, congrArg (· + 1) (snapshot_length s), rfl,
    hctr 0 rfl, hctr 1 rfl, hctr 2 rfl, hctr 3 rfl, hctr 4 rfl, hctr 5 rfl, hctr 6 rfl, hctr 7 rfl,
    hctr 8 rfl, hctr 9 rfl, hctr 10 rfl, hctr 11 rfl, hctr 12 rfl, hctr 13 rfl, hctr 14 rfl, hctr 15 rfl, hactive⟩

end Sys2Proof.Machine
end

section
/-! A request that fails (60_exceptions.md R189). -/

namespace Sys2Proof.Machine

/-- R189: taking a request off the inputs and handing back a response is all that a failure does. -/
theorem samePersistent_respond_withInputs (s : State) (rest : List HostInput) (r : Response) :
    SamePersistent s ((s.withInputs rest).respond r) :=
  ⟨rfl, rfl, rfl, rfl, rfl⟩

/-- An operation whose response has not status OK answers FAIL from the state it found. -/
theorem eq_respond_fail_of_exec {i : Instr} {s t : State} (h : exec i s = .next t)
    (hrsp : t.rsp = some [0x01] ∨ t.rsp = some [0xFF]) : t = s.respond .fail := by
  obtain ⟨u, r, -, hexec, hr⟩ := exec_effect i s
  obtain rfl : u.respond r = t := Host.Outcome.next.inj (hexec.symm.trans h)
  obtain ⟨rfl, rfl⟩ | ⟨f, rfl⟩ := hr
  · rfl
  · simp at hrsp

/-- Settles O50: a rejected message and an operation that fails both end in a response from the state before. -/
theorem failuresChangeNothing : Obligations.FailuresChangeNothing := by
  intro s t req rest hs hstep hrsp
  obtain ⟨hnone, -⟩ | ⟨_, hreset, -⟩ | ⟨_, rest, i, -, -, hexec⟩ | ⟨_, rest, why, -, -, rfl⟩ := step_cases hstep
  · simp [hs] at hnone
  · simp [hs] at hreset
  · rw [eq_respond_fail_of_exec hexec hrsp]
    exact samePersistent_respond_withInputs s rest .fail
  · exact samePersistent_respond_withInputs s rest .badRequest

end Sys2Proof.Machine
end

section
/-! What a constructed block holds (70_reset_and_hazards.md R200). -/

namespace Sys2Proof.Machine

/-- R200: every slot of the table is Empty. -/
@[simp] theorem State.construct_slots_getElem (mac : Mac) (ip : Ipa) (k : Fin 64) :
    (State.construct mac ip).slots[k] = none :=
  Vector.getElem_replicate k.isLt

/-- R200: all sixteen counters are zero. -/
@[simp] theorem Counters.zero_inOrder : Counters.zero.inOrder = List.replicate 16 0 := rfl

/-- Settles O14: the table is 64 Empty slots and the counters are `Counters.zero`; the rest is the constructor's. -/
theorem resetStateIsTheConstructedState : Obligations.ResetStateIsTheConstructedState :=
  ⟨fun mac ip => ⟨rfl, State.construct_slots_getElem mac ip, Counters.zero_inOrder, rfl, rfl, rfl⟩, _, _, rfl⟩

end Sys2Proof.Machine
end

section
/-! Decoder and encoder agree in both directions (30_encoding.md R83 to R85, R90, R96). -/

namespace Sys2Proof

open Machine Spec

/-- Settles O2: a well-formed instruction's request fits the transport, and the decoder reads it back. -/
theorem decodeOfEncodeIsTheInstruction : Obligations.DecodeOfEncodeIsTheInstruction := fun i hwf =>
  (isRequestOf_encode i).2 ((Laws.EncodeShape.wellFormed_iff_length i).1 hwf)

/-- R85 and R96: the operand fields that `assemble` reads take up every byte between the opcode and the variable part. -/
theorem operandBytes_assemble (o : Op) (b : Byte) (tl : Bytes) :
    (assemble o (b :: tl)).operandBytes
      = (List.range (o.format.fixedLen - 1)).map (byteAt tl) ++ (assemble o (b :: tl)).variablePart := by
  cases o with
  | mgrInit | mgrProcessEvents | mgrGetStats | macEq | macIsBcast | macIsNull | ipaEq | ipaIsBcast | ipaIsNull
  | ethDec | ethAccept | ipEnc | ipDec | ipDispatch | udpDec | udpSend | udpRecv => rfl
  | ethEnc | udpEnc | tcpCreate => simp only [assemble, Instr.operandBytes, enc16_be16]; rfl
  | tcpClose | tcpSend => simp only [assemble, Instr.operandBytes, encId_eq_enc32, idAt_eq_be32, enc32_be32]; rfl
  | tcpRecv =>
    simp only [assemble, Instr.operandBytes, encId_eq_enc32, idAt_eq_be32, enc32_be32, enc16_be16]; rfl

/-- R83: a message that passes its format's length check ends with the variable part of what is read from it. -/
theorem drop_fixedLen_eq_variablePart {o : Op} {req : Bytes} (hok : o.format.lengthOk req.length = true) :
    req.drop o.format.fixedLen = (assemble o req).variablePart := by
  rw [assemble_variablePart]
  obtain ⟨hv, -⟩ | ⟨hv, hlen⟩ := (lengthOk_iff_lengthFits _ _).1 hok
  · rw [if_pos hv]
  · simp [hv, ← hlen]

theorem one_le_fixedLen (f : Format) : 1 ≤ f.fixedLen := by cases f <;> decide

/-- R96: encoding what was read from a message of a format's length writes the message again. -/
theorem encode_assemble {o : Op} {tl : Bytes} (hok : o.format.lengthOk (o.opcode :: tl).length = true) :
    encode (assemble o (o.opcode :: tl)) = o.opcode :: tl := by
  have hF := one_le_fixedLen o.format
  have hlen : o.format.fixedLen - 1 ≤ tl.length := by
    have := fixedLen_le_of_lengthOk hok
    simp only [List.length_cons] at this
    omega
  have hdrop : (o.opcode :: tl).drop o.format.fixedLen = tl.drop (o.format.fixedLen - 1) := List.drop_cons hF
  rw [encode, assemble_op, operandBytes_assemble, ← drop_fixedLen_eq_variablePart hok, hdrop,
    ← eq_bytes_append_drop _ tl hlen]

/-- Settles O3: an accepted message has its format's length, so writing its fields back gives the message. -/
theorem encodeOfDecodeIsTheRequest : Obligations.EncodeOfDecodeIsTheRequest := by
  intro req i hd
  obtain ⟨tl, o, rfl, hle, hok, rfl⟩ := decode_eq_instr hd
  have henc := encode_assemble hok
  exact ⟨henc, (Laws.EncodeShape.wellFormed_iff_length _).2 ((congrArg List.length henc).trans_le hle)⟩

theorem mem_rows (o : Op) : (o.opcode, o, o.format.fixedLen, o.format.hasVariable) ∈ rows := by
  cases o <;> decide

/-- Settles O4: a row of the spec's table is the opcode and format of its operation, and the decoder checks its length. -/
theorem decodeAcceptsExactlyTheFormats : Obligations.DecodeAcceptsExactlyTheFormats := by
  intro req o
  constructor
  · rintro ⟨i, hd, rfl⟩
    obtain ⟨tl, o, rfl, hle, hok, rfl⟩ := decode_eq_instr hd
    rw [assemble_op]
    exact ⟨o.opcode, tl, _, _, rfl, mem_rows o, hle, (lengthOk_iff_lengthFits _ _).1 hok⟩
  · rintro ⟨b, tl, F, v, rfl, hrow, hle, hfit⟩
    obtain ⟨rfl, rfl, rfl⟩ := row_eq_of_mem_rows hrow
    exact ⟨_, decode_of_lengthFits o tl hle hfit, assemble_op o _⟩

theorem decode_of_encode_eq {msg : Bytes} {i : Instr} (henc : encode i = msg) (hl : msg.length ≤ 65535) :
    decode msg = .instr i := by
  subst henc
  exact (isRequestOf_encode i).2 hl

/-- Settles O1: each message is what the encoder writes for the instruction it stands for. -/
theorem specRequestsDecodeAsWritten : Obligations.SpecRequestsDecodeAsWritten := by
  refine ⟨?_, ?_, ?_, ?_, ?_, ?_, ?_⟩ <;> exact decode_of_encode_eq rfl (by decide)

end Sys2Proof
end

section
/-! What a step can do (30_encoding.md R80 and R97, 60_exceptions.md R190): it answers a next state unless the message
presented is one the transport never delivers. -/

namespace Sys2Proof

/-- The inversion law of a rejection. -/
theorem decode_eq_rejected {req : Bytes} {why : DecodeError} (h : decode req = .rejected why) :
    (why = .emptyRequest ∧ req = []) ∨ (why = .overlongRequest ∧ Config.reqMaxLen < req.length) ∨
    (∃ b, why = .reservedOpcode b) ∨ ∃ o, why = .badLength o := by
  unfold decode at h
  split at h
  · exact .inl ⟨(Decoded.rejected.inj h).symm, rfl⟩
  · split at h
    · next hlong => exact .inr (.inl ⟨(Decoded.rejected.inj h).symm, hlong⟩)
    · split at h
      · exact .inr (.inr (.inl ⟨_, (Decoded.rejected.inj h).symm⟩))
      · split at h
        · simp at h
        · exact .inr (.inr (.inr ⟨_, (Decoded.rejected.inj h).symm⟩))

end Sys2Proof

namespace Sys2Proof.Machine

theorem State.elim_unready_ready {s : State} {P : Prop} (hoff : s.ready = false) (hon : s.ready = true) : P :=
  absurd (hoff.symm.trans hon) Bool.false_ne_true

theorem step_of_no_inputs {s : State} (h : s.inputs = []) : step s = .next s := by
  simp only [step, h, idle]

theorem step_of_reset {s : State} {rest : List HostInput} (h : s.inputs = .reset :: rest) :
    step s = .next (s.withInputs rest).applyReset := by
  simp only [step, h]

theorem step_of_empty {s : State} {rest : List HostInput} (h : s.inputs = .request [] :: rest) :
    step s = .fault .emptyRequest :=
  step_of_rejected h rfl

theorem step_of_overlong {s : State} {req : Bytes} {rest : List HostInput} (h : s.inputs = .request req :: rest)
    (hlong : 65535 < req.length) : step s = .fault .overlongRequest := by
  have hd : decode req = .rejected .overlongRequest := by
    cases req with
    | nil => simp at hlong
    | cons b tl => exact if_pos hlong
  exact step_of_rejected h hd

/-- R97 and R190: only a message that the transport never delivers stops the machine. -/
theorem step_next_or_undelivered (s : State) :
    (∃ t, step s = .next t) ∨ (∃ rest, s.inputs = .request [] :: rest) ∨
    ∃ req rest, s.inputs = .request req :: rest ∧ 65535 < req.length := by
  match hs : s.inputs with
  | [] => exact .inl ⟨_, step_of_no_inputs hs⟩
  | .reset :: rest => exact .inl ⟨_, step_of_reset hs⟩
  | .request req :: rest =>
    cases hd : decode req with
    | instr i =>
      obtain ⟨u, r, -, hexec, -⟩ := exec_effect i (s.withInputs rest)
      exact .inl ⟨_, (step_of_decode hs hd).trans hexec⟩
    | rejected why =>
      have hstep := step_of_rejected hs hd
      obtain ⟨-, rfl⟩ | ⟨-, hlong⟩ | ⟨b, rfl⟩ | ⟨o, rfl⟩ := decode_eq_rejected hd
      · exact .inr (.inl ⟨rest, rfl⟩)
      · exact .inr (.inr ⟨req, rest, rfl, hlong⟩)
      · exact .inl ⟨_, hstep⟩
      · exact .inl ⟨_, hstep⟩

/-- Settles O12: the two undelivered messages fault, each by its name, and everything else answers a next state. -/
theorem stepStopsOnlyOnUndeliveredMessages : Obligations.StepStopsOnlyOnUndeliveredMessages := by
  refine ⟨fun s r => ⟨fun hr => ?_, ?_⟩, fun s r hr => ?_⟩
  · obtain ⟨t, ht⟩ | ⟨rest, hs⟩ | ⟨req, rest, hs, hlong⟩ := step_next_or_undelivered s
    · cases ht.symm.trans hr
    · cases (step_of_empty hs).symm.trans hr
      exact .inl ⟨⟨rest, hs⟩, rfl⟩
    · cases (step_of_overlong hs hlong).symm.trans hr
      exact .inr ⟨⟨req, rest, hs, hlong⟩, rfl⟩
  · rintro (⟨⟨rest, hs⟩, rfl⟩ | ⟨⟨req, rest, hs, hlong⟩, rfl⟩)
    · exact step_of_empty hs
    · exact step_of_overlong hs hlong
  · obtain ⟨t, ht⟩ | ⟨rest, hs⟩ | ⟨req, rest, hs, hlong⟩ := step_next_or_undelivered s
    · cases ht.symm.trans hr
    · cases (step_of_empty hs).symm.trans hr
    · cases (step_of_overlong hs hlong).symm.trans hr

/-- An operation that answers a next state made its effect and handed back a response. -/
theorem exec_next_effect {i : Instr} {s t : State} (h : exec i s = .next t) :
    ∃ u r, Effect s i u ∧ t = u.respond r := by
  obtain ⟨u, r, heff, hu, -⟩ := exec_effect i s
  exact ⟨u, r, heff, Host.Outcome.next.inj (h.symm.trans hu)⟩

theorem Effect.inputs_eq {s u : State} {i : Instr} (h : Effect s i u) : u.inputs = s.inputs := by
  cases h <;> rfl

/-- A step takes the host's next input and no other. -/
theorem step_inputs {s t : State} (h : step s = .next t) : t.inputs = s.inputs.tail := by
  obtain ⟨hs, rfl⟩ | ⟨rest, hs, rfl⟩ | ⟨req, rest, i, hs, -, hexec⟩ | ⟨req, rest, why, hs, -, rfl⟩ := step_cases h
  · rw [hs, List.tail_nil]
  · rw [hs]; rfl
  · obtain ⟨u, r, heff, rfl⟩ := exec_next_effect hexec
    rw [hs]
    exact heff.inputs_eq
  · rw [hs]; rfl

/-- The inversion law of a step on a request. -/
theorem step_request_cases {s t : State} {req : Bytes} {rest : List HostInput}
    (hs : s.inputs = .request req :: rest) (h : step s = .next t) :
    (∃ i, decode req = .instr i ∧ exec i (s.withInputs rest) = .next t) ∨
    t = (s.withInputs rest).respond .badRequest := by
  obtain ⟨hs', -⟩ | ⟨_, hs', -⟩ | ⟨_, _, i, hs', hd, hexec⟩ | ⟨_, _, _, hs', -, ht⟩ := step_cases h
  · cases hs.symm.trans hs'
  · cases hs.symm.trans hs'
  · cases hs.symm.trans hs'
    exact .inl ⟨i, hd, hexec⟩
  · cases hs.symm.trans hs'
    exact .inr ht

/-- A step on a request hands back a response. -/
theorem step_request_rsp {s t : State} {req : Bytes} {rest : List HostInput} (hs : s.inputs = .request req :: rest)
    (h : step s = .next t) : ∃ r : Response, t.rsp = some r.bytes := by
  obtain ⟨i, -, hexec⟩ | rfl := step_request_cases hs h
  · obtain ⟨u, r, -, rfl⟩ := exec_next_effect hexec
    exact ⟨r, rfl⟩
  · exact ⟨.badRequest, rfl⟩

/-- R81 and R82: the three forms of a response. -/
theorem Response.bytes_cases (r : Response) : (∃ f, r.bytes = 0x00 :: f) ∨ r.bytes = [0x01] ∨ r.bytes = [0xFF] := by
  cases r with
  | ok f => exact .inl ⟨f, rfl⟩
  | fail => exact .inr (.inl rfl)
  | badRequest => exact .inr (.inr rfl)

theorem exists_step_of_delivered {s : State}
    (h : ∀ req rest, s.inputs = .request req :: rest → Delivered req) : ∃ t, step s = .next t := by
  obtain hnext | ⟨rest, hs⟩ | ⟨req, rest, hs, hlong⟩ := step_next_or_undelivered s
  · exact hnext
  · exact absurd (h [] rest hs).1 (by decide)
  · exact absurd (h req rest hs).2 (Nat.not_le.2 hlong)

/-- Settles O9: a delivered message does not stop the machine, and every request gets a response. -/
theorem everyDeliveredRequestIsAnswered : Obligations.EveryDeliveredRequestIsAnswered := by
  intro s req rest hs hdel
  obtain ⟨t, ht⟩ : ∃ t, step s = .next t :=
    exists_step_of_delivered fun req' rest' hs' => by
      cases hs.symm.trans hs'
      exact hdel
  obtain ⟨r, hr⟩ := step_request_rsp hs ht
  exact ⟨t, r.bytes, ht, hr, by rw [step_inputs ht, hs, List.tail_cons], r.bytes_cases⟩

theorem SafeInputs.exists_step {s : State} (h : SafeInputs s) : ∃ t, step s = .next t :=
  exists_step_of_delivered fun req _ hs => h req (hs ▸ List.mem_cons_self)

theorem SafeInputs.of_step {s t : State} (h : SafeInputs s) (ht : step s = .next t) : SafeInputs t :=
  fun req hreq => h req (List.mem_of_mem_tail (step_inputs ht ▸ hreq))

/-- Settles O59, by induction on the number of steps: a safe state steps to a safe state. -/
theorem safeRunsNeverStop : Obligations.SafeRunsNeverStop := by
  intro n
  induction n with
  | zero => exact fun s h => ⟨s, rfl, h⟩
  | succ n ih =>
    intro s h
    obtain ⟨t, ht⟩ := h.exists_step
    obtain ⟨u, hrun, hu⟩ := ih t (h.of_step ht)
    exact ⟨u, (core_run_next n ht).trans hrun, hu⟩

/-- Settles O10: taking the request is `State.withInputs`. -/
theorem stepRunsTheDecodedInstruction : Obligations.StepRunsTheDecodedInstruction := fun _ _ _ _ => step_of_decode

/-- Settles O11: the step is `idle`. -/
theorem stepWithNothingPresentedIsIdle : Obligations.StepWithNothingPresentedIsIdle := fun _ => step_of_no_inputs

/-- Settles O13: the state answered is a constructed one with the inputs still to come. -/
theorem resetGivesTheConstructedState : Obligations.ResetGivesTheConstructedState := fun s _ hs =>
  ⟨_, step_of_reset hs, rfl, State.construct_slots_getElem s.localMac s.localIp,
    fun _ hc => List.eq_of_mem_replicate (Counters.zero_inOrder ▸ hc), rfl, rfl, rfl, rfl⟩

/-- R22: no operation clears `ready`, and MGR.INIT alone sets it. -/
theorem Effect.ready_cases {s u : State} {i : Instr} (h : Effect s i u) :
    u.ready = s.ready ∨ (i = .mgrInit ∧ u.ready = true) := by
  cases h with
  | init => exact .inr ⟨rfl, rfl⟩
  | unchanged | create | close | tcpSend | tcpRecv | udpSend | udpRecv => exact .inl rfl

theorem ready_clauses_of_eq {s t : State} {P Q : Prop} (h : t.ready = s.ready) :
    (s.ready = false → t.ready = true → P) ∧ (s.ready = true → t.ready = false → Q) := by
  rw [h]
  exact ⟨fun hoff hon => State.elim_unready_ready hoff hon, fun hon hoff => State.elim_unready_ready hoff hon⟩

/-- Settles O49: of all that a step can be, only a reset and the effect of MGR.INIT touch `ready`. -/
theorem onlyInitSetsReadyOnlyResetClearsIt : Obligations.OnlyInitSetsReadyOnlyResetClearsIt := by
  intro s t hstep
  obtain ⟨-, rfl⟩ | ⟨rest, hs, rfl⟩ | ⟨req, rest, i, hs, hd, hexec⟩ | ⟨_, _, _, -, -, rfl⟩ := step_cases hstep
  · exact ready_clauses_of_eq rfl
  · exact ⟨fun _ hon => absurd hon Bool.false_ne_true, fun _ _ => ⟨rest, hs⟩⟩
  · obtain ⟨u, r, heff, rfl⟩ := exec_next_effect hexec
    obtain hsame | ⟨rfl, hon⟩ := heff.ready_cases
    · exact ready_clauses_of_eq hsame
    · exact ⟨fun _ _ => ⟨req, rest, hs, hd⟩, fun _ hoff => State.elim_unready_ready hoff hon⟩
  · exact ready_clauses_of_eq rfl

end Sys2Proof.Machine
end

section
/-! What the forwarding calls of the connection table find behind the ready gate (44_tcp_table.md R150 to R156). -/

namespace Sys2Proof.Machine

/-- R170: behind the gate a lookup finds nothing, or the gate is open and it finds something. -/
theorem gate_cases {α : Type} (ready : Bool) (found : Option α) :
    (ready = true → found = none) ∨ (ready = true ∧ ∃ a, found = some a) := by
  cases found with
  | none => exact .inl fun _ => rfl
  | some a =>
    cases ready with
    | false => exact .inl fun hon => absurd hon Bool.false_ne_true
    | true => exact .inr ⟨rfl, a, rfl⟩

/-- R150 and R170: what a create finds. -/
theorem State.firstFree_cases (s : State) :
    (s.ready = true → s.firstFree = none) ∨ (s.ready = true ∧ ∃ k, s.firstFree = some k) :=
  gate_cases s.ready s.firstFree

/-- R153 and R170: what a forwarding call with an id finds. -/
theorem State.liveConn_cases (s : State) (id : ConnId) :
    (s.ready = true → s.liveConn id = none) ∨ (s.ready = true ∧ ∃ k c, s.liveConn id = some (k, c)) := by
  simpa only [Prod.exists] using gate_cases s.ready (s.liveConn id)

/-- R156: with nothing queued for the id the answer is the sentinel. -/
theorem exec_tcpRecv_of_nothing_queued {s : State} {id : ConnId} {cap : Half}
    (h : ∀ k c, s.ready = true → s.liveConn id = some (k, c) → min c.rxq.length cap.toNat = 0) :
    exec (.tcpRecv id cap) s = .next (s.respond (.ok [0x00, 0x00])) := by
  obtain hnone | ⟨hr, k, c, hk⟩ := s.liveConn_cases id
  · exact exec_tcpRecv_of_no_liveConn cap hnone
  · exact (exec_tcpRecv_of_liveConn cap hr hk).trans
      (receiveFrom_of_min_eq_zero (State.liveConn_eq_some.1 hk).2 (h k c hr hk))

/-- R156: what a receive finds behind the gate, nothing or at least one byte. -/
theorem State.queued_cases (s : State) (id : ConnId) (cap : Half) :
    (∀ k c, s.ready = true → s.liveConn id = some (k, c) → min c.rxq.length cap.toNat = 0) ∨
    ∃ k c, s.ready = true ∧ s.liveConn id = some (k, c) ∧ 0 < min c.rxq.length cap.toNat := by
  by_cases h : ∃ k c, s.ready = true ∧ s.liveConn id = some (k, c) ∧ 0 < min c.rxq.length cap.toNat
  · exact .inr h
  · exact .inl fun k c hr hk => Nat.eq_zero_of_not_pos fun hpos => h ⟨k, c, hr, hk, hpos⟩

theorem exec_tcpRecv_of_queued {s : State} {id : ConnId} {cap : Half} {k : Fin Config.tcpSlots} {c : Conn}
    (hr : s.ready = true) (hk : s.liveConn id = some (k, c)) (hpos : 0 < min c.rxq.length cap.toNat) :
    exec (.tcpRecv id cap) s =
      let n := min c.rxq.length cap.toNat
      .next (((s.setSlot k (some { c with rxq := c.rxq.drop n })).countTcpReceived n).respond
        (.ok (enc16 (BitVec.ofNat 16 n) ++ c.rxq.take n))) :=
  (exec_tcpRecv_of_liveConn cap hr hk).trans (receiveFrom_of_min_pos (State.liveConn_eq_some.1 hk).2 rfl hpos)

end Sys2Proof.Machine
end

section
/-! The invariant of 10_state.md section 9, items 2 to 4, and what it says of TCP.RECV and MGR.GET_STATS. -/

namespace Sys2Proof.Machine

/-- R200: the constructed block. -/
theorem reachInv_construct (mac : Mac) (ip : Ipa) : ReachInv (State.construct mac ip) where
  rxqEmpty k c hc := by cases (State.construct_slots_getElem mac ip k).symm.trans hc
  ethZero := rfl
  ipZero := rfl
  tcpRecvZero := ⟨rfl, rfl⟩
  unready _ := ⟨rfl, rfl⟩

/-- Settles O48: the reset state is a constructed one. -/
theorem reachInvHoldsAtReset : Obligations.ReachInvHoldsAtReset := ⟨reachInv_construct, reachInv_construct _ _⟩

/-- The invariant speaks of the persistent state only. -/
theorem ReachInv.of_samePersistent {s t : State} (h : ReachInv s) (hst : SamePersistent s t) : ReachInv t := by
  obtain ⟨hready, -, -, hslots, hctr⟩ := hst
  obtain ⟨hrxq, heth, hip, hrecv, hun⟩ := h
  constructor <;> simpa only [hready, hslots, hctr]

/-- A ready block that has left the counters of the invariant alone meets it when its queues are empty. -/
theorem ReachInv.of_ready {s u : State} (h : ReachInv s) (hon : u.ready = true)
    (hrxq : ∀ (k : Fin Config.tcpSlots) (c : Conn), u.slots[k] = some c → c.rxq = [])
    (heth : u.ctr.eth = s.ctr.eth) (hip : u.ctr.ip = s.ctr.ip)
    (hunits : u.ctr.tcp.unitsRecv = s.ctr.tcp.unitsRecv) (hbytes : u.ctr.tcp.bytesRecv = s.ctr.tcp.bytesRecv) :
    ReachInv u where
  rxqEmpty := hrxq
  ethZero := heth.trans h.ethZero
  ipZero := hip.trans h.ipZero
  tcpRecvZero := ⟨hunits.trans h.tcpRecvZero.1, hbytes.trans h.tcpRecvZero.2⟩
  unready hoff := State.elim_unready_ready hoff hon

/-- Replacing a slot by one that holds nothing queued keeps the invariant of a ready block. -/
theorem ReachInv.setSlot {s : State} (h : ReachInv s) (hon : s.ready = true) (k : Fin Config.tcpSlots) {v : Slot}
    (hv : ∀ c, v = some c → c.rxq = []) : ReachInv (s.setSlot k v) := by
  refine h.of_ready hon (fun j c hc => ?_) rfl rfl rfl rfl
  obtain rfl | hne := eq_or_ne j k
  · exact hv c ((s.setSlot_same j v).symm.trans hc)
  · exact h.rxqEmpty j c ((s.setSlot_other v hne).symm.trans hc)

/-- R157: under the invariant no byte is there to be received. -/
theorem ReachInv.min_rxq_eq_zero {s : State} (h : ReachInv s) {k : Fin Config.tcpSlots} {c : Conn}
    (hc : s.slots[k] = some c) (n : Nat) : min c.rxq.length n = 0 := by
  rw [h.rxqEmpty k c hc, List.length_nil, Nat.zero_min]

/-- Every operation keeps the invariant. -/
theorem Effect.reachInv {s u : State} {i : Instr} (heff : Effect s i u) (h : ReachInv s) : ReachInv u := by
  cases heff with
  | unchanged => exact h
  | init => exact h.of_ready rfl h.rxqEmpty rfl rfl rfl rfl
  | create lport rport k hr _ => exact h.setSlot hr k fun c hc => by cases hc; rfl
  | close id k c hr _ => exact h.setSlot hr k fun c hc => by cases hc
  | tcpRecv id cap k c n hr hk hn hpos =>
    have hzero := h.min_rxq_eq_zero (State.liveConn_eq_some.1 hk).2 cap.toNat
    exact absurd (hn.trans hzero) hpos.ne'
  | tcpSend _ _ hr | udpSend _ hr | udpRecv _ hr => exact h.of_ready hr h.rxqEmpty rfl rfl rfl rfl

/-- Settles O47: a reset constructs the block again, and everything else a step can be keeps the persistent state or
makes the effect of an operation. -/
theorem stepKeepsReachInv : Obligations.StepKeepsReachInv := by
  intro s t h hstep
  obtain ⟨-, rfl⟩ | ⟨rest, -, rfl⟩ | ⟨req, rest, i, -, -, hexec⟩ | ⟨req, rest, why, -, -, rfl⟩ := step_cases hstep
  · exact h
  · exact (reachInv_construct s.localMac s.localIp).of_samePersistent ⟨rfl, rfl, rfl, rfl, rfl⟩
  · obtain ⟨u, r, heff, rfl⟩ := exec_next_effect hexec
    have hrest : ReachInv (s.withInputs rest) := h.of_samePersistent ⟨rfl, rfl, rfl, rfl, rfl⟩
    exact (heff.reachInv hrest).of_samePersistent ⟨rfl, rfl, rfl, rfl, rfl⟩
  · exact h.of_samePersistent (samePersistent_respond_withInputs s rest .badRequest)

/-- R157: with all queues empty the answer is the sentinel. -/
theorem ReachInv.exec_tcpRecv {s : State} (h : ReachInv s) (id : ConnId) (cap : Half) :
    exec (.tcpRecv id cap) s = .next (s.respond (.ok [0x00, 0x00])) :=
  exec_tcpRecv_of_nothing_queued fun _ _ _ hk => h.min_rxq_eq_zero (State.liveConn_eq_some.1 hk).2 cap.toNat

/-- Settles O38: the invariant leaves nothing queued. -/
theorem tcpRecvDeliversNothingReachable : Obligations.TcpRecvDeliversNothingReachable := fun id cap _ h =>
  h.exec_tcpRecv id cap

theorem State.active_eq_zero {s : State} (h : s.slots = Vector.replicate Config.tcpSlots none) : s.active = 0 := by
  rw [State.active, h, Vector.toList_replicate, List.countP_replicate]
  rfl

/-- R168: the snapshot of a block with an empty table and no counts is 132 bytes 0x00. -/
theorem snapshot_eq_zero {s : State} (hslots : s.slots = Vector.replicate Config.tcpSlots none)
    (hctr : s.ctr = .zero) : snapshot s = List.replicate 132 0x00 := by
  rw [snapshot, State.active_eq_zero hslots, hctr]
  decide

/-- Settles O43: un-ready, the invariant leaves an empty table and no counts. -/
theorem unreadySnapshotIsTheTrueOne : Obligations.UnreadySnapshotIsTheTrueOne := by
  intro s h hoff
  obtain ⟨hslots, hctr⟩ := h.unready hoff
  rw [snapshot_eq_zero hslots hctr]
  exact exec_mgrGetStats_of_unready hoff

/-- Settles O44: the shut gate of each forwarding call. -/
theorem readyGateAnswers : Obligations.ReadyGateAnswers := by
  intro s hoff
  have hnone (id : ConnId) : s.ready = true → s.liveConn id = none := State.elim_unready_ready hoff
  have hfree : s.ready = true → s.firstFree = none := State.elim_unready_ready hoff
  exact ⟨exec_tcpCreate_of_no_free hfree, fun id => exec_tcpClose_of_no_liveConn (hnone id),
    fun id d => exec_tcpSend_of_no_liveConn d (hnone id), fun id cap => exec_tcpRecv_of_no_liveConn cap (hnone id),
    exec_udpSend_of_unready hoff, exec_udpRecv_of_unready hoff, exec_mgrGetStats_of_unready hoff⟩

end Sys2Proof.Machine
end

section
/-! The laws of 40_address_compare.md section 4. -/

namespace Sys2Proof.Machine

theorem ipaEq_eq_true_iff (a b : Ipa) : ipaEq a b = true ↔ a = b := by
  cases a
  cases b
  simp [ipaEq, Ipa.bytes]

theorem ipaIsBcast_eq_true_iff (a : Ipa) : ipaIsBcast a = true ↔ a = ⟨0xFF, 0xFF, 0xFF, 0xFF⟩ := by
  cases a
  simp [ipaIsBcast, Ipa.bytes]

theorem not_macIsBcast_and_macIsNull (a : Mac) : ¬ (macIsBcast a = true ∧ macIsNull a = true) := by
  rintro ⟨hbcast, hnull⟩
  obtain rfl := (macIsBcast_eq_true_iff a).1 hbcast
  exact absurd hnull (by decide)

theorem not_ipaIsBcast_and_ipaIsNull (a : Ipa) : ¬ (ipaIsBcast a = true ∧ ipaIsNull a = true) := by
  rintro ⟨hbcast, hnull⟩
  obtain rfl := (ipaIsBcast_eq_true_iff a).1 hbcast
  exact absurd hnull (by decide)

/-- Settles O17: byte-wise equality is equality, and broadcast is equality with the all-0xFF address. -/
theorem comparatorLaws : Obligations.ComparatorLaws :=
  ⟨macEq_eq_true_iff, not_macIsBcast_and_macIsNull,
    fun a => Bool.eq_iff_iff.2 ((macIsBcast_eq_true_iff a).trans (macEq_eq_true_iff a _).symm),
    ipaEq_eq_true_iff, not_ipaIsBcast_and_ipaIsNull,
    fun a => Bool.eq_iff_iff.2 ((ipaIsBcast_eq_true_iff a).trans (ipaEq_eq_true_iff a _).symm)⟩

end Sys2Proof.Machine
end

section
/-! The codecs' round trips (41_ethernet.md R126, 42_ip.md R136 and R137, 43_udp.md R146). -/

namespace Sys2Proof

theorem enc16_injective {v w : Half} (h : enc16 v = enc16 w) : v = w := by
  rw [← be16_enc16_self v, h, be16_enc16_self]

/-- R7: a substring and what follows it. -/
theorem slice_append_drop (s : Bytes) (o n : Nat) : slice s o n ++ s.drop (o + n) = s.drop o := by
  rw [slice, ← List.drop_drop, List.take_append_drop]

end Sys2Proof

namespace Sys2Proof.Machine

/-! ### Ethernet -/

theorem ethDecode_ethEncode (f : EthFrame) :
    ethDecode (ethEncode f) = some { f with payload := f.payload.take 1500 } := by
  have hlen := ethEncode_length f
  have htype : be16 (ethEncode f) 12 = f.et.code := be16_enc16 f.et.code (f.payload.take 1500)
  rw [ethDecode_of_le (by omega) (by omega), htype, EtherType.ofWire_code]
  rfl

/-- R126: a frame within the cap is read back whole. -/
theorem ethDecode_ethEncode_of_le {f : EthFrame} (h : f.payload.length ≤ 1500) :
    ethDecode (ethEncode f) = some f := by
  rw [ethDecode_ethEncode, List.take_of_length_le h]

/-- R70: the bytes of a frame are its addresses, its type field and its payload. -/
theorem ethFrame_bytes_eq {b : Bytes} (h : 14 ≤ b.length) : b.take 12 ++ enc16 (be16 b 12) ++ b.drop 14 = b := by
  rw [take_eq_bytes b 12 (by omega), enc16_be16]
  exact (eq_bytes_append_drop 14 b h).symm

theorem etnorm_eq_self_iff (w : Half) :
    etnorm w = w ↔ w = 0x0800 ∨ w = 0x86DD ∨ w = 0x0806 ∨ w = 0x0000 := by
  by_cases h : w = 0x0800 ∨ w = 0x86DD ∨ w = 0x0806
  · exact iff_of_true (etnorm_of_recognised h) (by tauto)
  · rw [etnorm_of_unrecognised h, eq_comm]
    tauto

/-- R126: encoding what was read from a byte string writes it with the EtherType normalised. -/
theorem ethEncode_fields {b : Bytes} (hlo : 14 ≤ b.length) (hhi : b.length ≤ 1514) :
    ethEncode ⟨macAt b 0, macAt b 6, .ofWire (be16 b 12), b.drop 14⟩
      = b.take 12 ++ enc16 (etnorm (be16 b 12)) ++ b.drop 14 := by
  have hpayload : (b.drop 14).take 1500 = b.drop 14 :=
    List.take_of_length_le (by rw [List.length_drop]; omega)
  rw [ethEncode, macAt_append_macAt_eq_take (by omega), hpayload, etnorm]

/-- The normalised bytes are the bytes exactly when the type field is normal. -/
theorem ethFrame_normalised_eq_iff {b : Bytes} (h : 14 ≤ b.length) (w : Half) :
    b.take 12 ++ enc16 w ++ b.drop 14 = b ↔ w = be16 b 12 := by
  constructor
  · intro heq
    have hsame := heq.trans (ethFrame_bytes_eq h).symm
    exact enc16_injective (List.append_cancel_left (List.append_cancel_right hsame))
  · rintro rfl
    exact ethFrame_bytes_eq h

/-- Settles O23: the codec keeps every field, and `enc16` tells a normalised EtherType from another. -/
theorem ethernetRoundTrip : Obligations.EthernetRoundTrip := by
  refine ⟨ethDecode_ethEncode, fun f => ethDecode_ethEncode_of_le, fun b hlo hhi => ?_⟩
  have henc := ethEncode_fields hlo hhi
  refine ⟨_, ethDecode_of_le hlo hhi, List.length_drop, henc, ?_⟩
  rw [henc, ethFrame_normalised_eq_iff hlo, etnorm_eq_self_iff]

/-! ### IP -/

theorem ipDecode_ipEncode (p : IpPacket) :
    ipDecode (ipEncode p) = some { p with payload := p.payload.take 1480 } := by
  have hlen := ipEncode_length p
  rw [ipDecode_of_le (by omega) (by omega)]
  rfl

/-- R136: a packet within the cap is read back whole. -/
theorem ipDecode_ipEncode_of_le {p : IpPacket} (h : p.payload.length ≤ 1480) : ipDecode (ipEncode p) = some p := by
  rw [ipDecode_ipEncode, List.take_of_length_le h]

/-- R136: encoding what was read from a byte string zeroes the filler and keeps the rest. -/
theorem ipEncode_fields {b : Bytes} (hlo : 20 ≤ b.length) (hhi : b.length ≤ 1500) :
    ipEncode ⟨ipaAt b 12, ipaAt b 16, byteAt b 9, b.drop 20⟩
      = List.replicate 9 0x00 ++ slice b 9 1 ++ [0x00, 0x00] ++ b.drop 12 := by
  have hpayload : (b.drop 20).take 1480 = b.drop 20 :=
    List.take_of_length_le (by rw [List.length_drop]; omega)
  rw [ipEncode, ipHeader_eq, hpayload, ipaAt_bytes_eq_slice (by omega), ipaAt_bytes_eq_slice (by omega),
    singleton_byteAt_eq_slice (by omega), List.append_assoc _ (slice b 16 4), slice_append_drop b 16 4,
    List.append_assoc _ (slice b 12 4), slice_append_drop b 12 4]

/-- Settles O27: the codec keeps every field and writes the filler anew. -/
theorem ipRoundTrip : Obligations.IpRoundTrip :=
  ⟨ipDecode_ipEncode, fun _ => ipDecode_ipEncode_of_le,
    fun _ hlo hhi => ⟨_, ipDecode_of_le hlo hhi, List.length_drop, ipEncode_fields hlo hhi⟩⟩

/-! ### UDP -/

theorem udpDecode_udpEncode (d : UdpDatagram) :
    udpDecode (udpEncode d) = some { d with payload := d.payload.take 1472 } := by
  have hlen := udpEncode_length d
  have hfields : (be16 (udpEncode d) 0, be16 (udpEncode d) 2, be16 (udpEncode d) 4, be16 (udpEncode d) 6)
      = (d.sport, d.dport, d.length, d.checksum) := by
    simp only [udpEncode, List.append_assoc, be16_after_enc16, be16_enc16]
  obtain ⟨hsport, hdport, hlength, hchecksum⟩ := by simpa only [Prod.mk.injEq] using hfields
  rw [udpDecode_of_le (by omega) (by omega), hsport, hdport, hlength, hchecksum]
  rfl

/-- R146: a datagram within the cap is read back whole. -/
theorem udpDecode_udpEncode_of_le {d : UdpDatagram} (h : d.payload.length ≤ 1472) :
    udpDecode (udpEncode d) = some d := by
  rw [udpDecode_udpEncode, List.take_of_length_le h]

/-- R146: encoding what was read from a byte string writes it again. -/
theorem udpEncode_fields {b : Bytes} (hlo : 8 ≤ b.length) (hhi : b.length ≤ 1480) :
    udpEncode ⟨be16 b 0, be16 b 2, be16 b 4, be16 b 6, b.drop 8⟩ = b := by
  have hpayload : (b.drop 8).take 1472 = b.drop 8 :=
    List.take_of_length_le (by rw [List.length_drop]; omega)
  rw [udpEncode, enc16_be16_fields_eq_take hlo, hpayload, List.take_append_drop]

/-- Settles O31: the codec keeps every field. -/
theorem udpRoundTrip : Obligations.UdpRoundTrip :=
  ⟨udpDecode_udpEncode, fun _ => udpDecode_udpEncode_of_le,
    fun _ hlo hhi => ⟨_, udpDecode_of_le hlo hhi, List.length_drop, udpEncode_fields hlo hhi⟩⟩

/-- Settles O28: an encoded datagram has at most 1480 bytes and its packet at most 1500, the caps of the layers below. -/
theorem capsNest : Obligations.CapsNest := by
  refine ⟨fun d si di proto dm sm et => ?_, fun b hb => ?_⟩
  · have hu : (udpEncode d).length ≤ 1480 := by
      rw [udpEncode_length]
      omega
    have hp : (ipEncode ⟨si, di, proto, udpEncode d⟩).length ≤ 1500 := by
      rw [ipEncode_length]
      omega
    exact ⟨ethDecode_ethEncode_of_le hp, ipDecode_ipEncode_of_le hu, udpDecode_udpEncode d⟩
  · have hpacket : (b.drop 14).length = 1500 := by rw [List.length_drop, hb]
    have hdatagram : ((b.drop 14).drop 20).length = 1480 := by rw [List.length_drop, hpacket]
    exact ⟨_, _, _, ethDecode_of_le (by omega) (by omega), ipDecode_of_le (b := b.drop 14) (by omega) (by omega),
      udpDecode_of_le (b := (b.drop 14).drop 20) (by omega) (by omega)⟩

end Sys2Proof.Machine
end

section
/-! The bytes of a variable part that are never read (20_memory.md R54). -/

namespace Sys2Proof.Machine

/-- A function that answers alike on all byte strings of more than `n` bytes does not depend on what stands beyond
the first `n`. -/
theorem eq_of_take_eq {α : Type} {f : Bytes → α} {a : α} {n : Nat} (hlong : ∀ b, n < b.length → f b = a)
    {p q : Bytes} (htake : p.take n = q.take n) (hlen : p.length = q.length) : f p = f q := by
  obtain hle | hlt := le_or_gt p.length n
  · rw [List.take_of_length_le hle, List.take_of_length_le (hlen ▸ hle)] at htake
    rw [htake]
  · rw [hlong p hlt, hlong q (hlen ▸ hlt)]

theorem ethEncode_eq_of_take_eq (dst src : Mac) (et : EtherType) {p q : Bytes} (h : p.take 1500 = q.take 1500) :
    ethEncode ⟨dst, src, et, p⟩ = ethEncode ⟨dst, src, et, q⟩ :=
  congrArg (dst.bytes ++ src.bytes ++ enc16 et.code ++ ·) h

theorem ipEncode_eq_of_take_eq (src dst : Ipa) (proto : Byte) {p q : Bytes} (h : p.take 1480 = q.take 1480) :
    ipEncode ⟨src, dst, proto, p⟩ = ipEncode ⟨src, dst, proto, q⟩ :=
  congrArg (ipHeader src dst proto ++ ·) h

theorem udpEncode_eq_of_take_eq (sport dport length checksum : Half) {p q : Bytes}
    (h : p.take 1472 = q.take 1472) :
    udpEncode ⟨sport, dport, length, checksum, p⟩ = udpEncode ⟨sport, dport, length, checksum, q⟩ :=
  congrArg (enc16 sport ++ enc16 dport ++ enc16 length ++ enc16 checksum ++ ·) h

/-- R154: of its data TCP.SEND uses the length. -/
theorem exec_tcpSend_eq_of_length_eq {p q : Bytes} (h : p.length = q.length) (id : ConnId) (s : State) :
    exec (.tcpSend id p) s = exec (.tcpSend id q) s := by
  obtain hnone | ⟨hr, k, c, hkc⟩ := s.liveConn_cases id
  · rw [exec_tcpSend_of_no_liveConn p hnone, exec_tcpSend_of_no_liveConn q hnone]
  · rw [exec_tcpSend_of_liveConn p hr hkc, exec_tcpSend_of_liveConn q hr hkc, h]

/-- Settles O56: an encoder cuts to its cap, a decoder fails beyond its cap, and the accounting takes a length. -/
theorem unreadBytesNeverMatter : Obligations.UnreadBytesNeverMatter := by
  refine ⟨fun dst src w p q s h => ?_, fun src dst proto p q s h => ?_,
    fun sport dport length checksum p q s h => ?_, fun p q s htake hlen => ?_, fun p q s htake hlen => ?_,
    fun p q s htake hlen => ?_, fun p q s hlen => ⟨?_, ?_, fun id => exec_tcpSend_eq_of_length_eq hlen id s⟩⟩
  · rw [exec_ethEnc, exec_ethEnc, ethEncode_eq_of_take_eq dst src _ h]
  · rw [exec_ipEnc, exec_ipEnc, ipEncode_eq_of_take_eq src dst proto h]
  · rw [exec_udpEnc, exec_udpEnc, udpEncode_eq_of_take_eq sport dport length checksum h]
  · exact eq_of_take_eq (f := fun b => exec (.ethDec b) s)
      (fun b hb => exec_ethDec_of_none (ethDecode_of_gt hb) s) htake hlen
  · exact eq_of_take_eq (f := fun b => exec (.ipDec b) s)
      (fun b hb => exec_ipDec_of_none (ipDecode_of_gt hb) s) htake hlen
  · exact eq_of_take_eq (f := fun b => exec (.udpDec b) s)
      (fun b hb => exec_udpDec_of_none (udpDecode_of_gt hb) s) htake hlen
  · rw [exec_udpSend, exec_udpSend, hlen]
  · rw [exec_udpRecv, exec_udpRecv, hlen]

end Sys2Proof.Machine
end

section
/-! Operations that read no state, or not `ready` (20_memory.md R55, 45_manager.md R170). -/

namespace Sys2Proof.Machine

/-- R55: the answer of a pure operation is chosen before the state is known. -/
theorem exec_eq_answer_of_isPure {i : Instr} (h : i.op.isPure = true) : ∃ r, ∀ s, exec i s = answer r s := by
  cases i with
  | macEq | macIsBcast | macIsNull | ipaEq | ipaIsBcast | ipaIsNull | ethEnc | ethAccept | ipEnc | udpEnc =>
    exact ⟨_, fun _ => rfl⟩
  | ethDec bytes =>
    cases hd : ethDecode bytes with
    | none => exact ⟨.fail, exec_ethDec_of_none hd⟩
    | some f => exact ⟨.ok _, exec_ethDec_of_some hd⟩
  | ipDec bytes =>
    cases hd : ipDecode bytes with
    | none => exact ⟨.fail, exec_ipDec_of_none hd⟩
    | some p => exact ⟨.ok _, exec_ipDec_of_some hd⟩
  | ipDispatch proto =>
    by_cases hp : proto = 1 ∨ proto = 6 ∨ proto = 17
    · exact ⟨.ok [proto], exec_ipDispatch_of_recognised hp⟩
    · exact ⟨.fail, exec_ipDispatch_of_none (ipDispatch_of_unrecognised hp)⟩
  | udpDec bytes =>
    cases hd : udpDecode bytes with
    | none => exact ⟨.fail, exec_udpDec_of_none hd⟩
    | some d => exact ⟨.ok _, exec_udpDec_of_some hd⟩
  | mgrInit | mgrProcessEvents | mgrGetStats | udpSend | udpRecv | tcpCreate | tcpClose | tcpSend | tcpRecv =>
    exact absurd h Bool.false_ne_true

/-- Settles O51: the response is the one chosen before the state is known. -/
theorem pureOperationsReadAndWriteNoState : Obligations.PureOperationsReadAndWriteNoState := by
  intro i hpure
  obtain ⟨r, hr⟩ := exec_eq_answer_of_isPure hpure
  exact ⟨r.bytes, hr⟩

theorem isPure_or_of_not_isForwarding {i : Instr} (h : i.op.isForwarding = false) :
    i.op.isPure = true ∨ i = .mgrInit ∨ i = .mgrProcessEvents := by
  cases i with
  | mgrInit => exact .inr (.inl rfl)
  | mgrProcessEvents => exact .inr (.inr rfl)
  | mgrGetStats | udpSend | udpRecv | tcpCreate | tcpClose | tcpSend | tcpRecv => exact absurd h.symm Bool.false_ne_true
  | _ => exact .inl rfl

/-- R170: an operation that is no forwarding call has one response for all states. -/
theorem exec_response_of_not_isForwarding {i : Instr} (h : i.op.isForwarding = false) :
    ∃ r, ∀ s, ∃ u : State, exec i s = .next (u.respond r) := by
  obtain hpure | rfl | rfl := isPure_or_of_not_isForwarding h
  · obtain ⟨r, hr⟩ := exec_eq_answer_of_isPure hpure
    exact ⟨r, fun s => ⟨s, hr s⟩⟩
  · exact ⟨.ok [], fun s => ⟨s.setReady, exec_mgrInit s⟩⟩
  · exact ⟨.ok [], fun s => ⟨s, exec_mgrProcessEvents s⟩⟩

/-- Settles O45: one response for all states is one for both values of `ready`. -/
theorem otherOperationsIgnoreReady : Obligations.OtherOperationsIgnoreReady := by
  intro i s b hfwd
  obtain ⟨r, hr⟩ := exec_response_of_not_isForwarding hfwd
  obtain ⟨t, ht⟩ := hr s
  obtain ⟨u, hu⟩ := hr { s with ready := b }
  exact ⟨_, _, ht, hu, rfl⟩

end Sys2Proof.Machine
end

section
/-! What an operation's effect does to the counters and to the slots (10_state.md R25 to R30). -/

namespace Sys2Proof.Machine

/-- Settles O52, by the effects: each counts in one pair of counters, or in none. -/
theorem countersHaveTheirWriters : Obligations.CountersHaveTheirWriters := by
  intro i s t hexec
  obtain ⟨u, r, heff, rfl⟩ := exec_next_effect hexec
  cases heff with
  | unchanged | init | create | close =>
    exact ⟨rfl, rfl, fun _ => ⟨rfl, rfl⟩, fun _ => ⟨rfl, rfl⟩, fun _ => ⟨rfl, rfl⟩, fun _ => ⟨rfl, rfl⟩⟩
  | tcpSend =>
    exact ⟨rfl, rfl, fun hop => absurd rfl hop, fun _ => ⟨rfl, rfl⟩, fun _ => ⟨rfl, rfl⟩, fun _ => ⟨rfl, rfl⟩⟩
  | tcpRecv =>
    exact ⟨rfl, rfl, fun _ => ⟨rfl, rfl⟩, fun hop => absurd rfl hop, fun _ => ⟨rfl, rfl⟩, fun _ => ⟨rfl, rfl⟩⟩
  | udpSend =>
    exact ⟨rfl, rfl, fun _ => ⟨rfl, rfl⟩, fun _ => ⟨rfl, rfl⟩, fun hop => absurd rfl hop, fun _ => ⟨rfl, rfl⟩⟩
  | udpRecv =>
    exact ⟨rfl, rfl, fun _ => ⟨rfl, rfl⟩, fun _ => ⟨rfl, rfl⟩, fun _ => ⟨rfl, rfl⟩, fun hop => absurd rfl hop⟩

/-- A slot of the table after one slot was replaced. -/
theorem State.setSlot_slot_cases (s : State) (k j : Fin Config.tcpSlots) (v : Slot) :
    (s.setSlot k v).slots[j] = s.slots[j] ∨ (j = k ∧ (s.setSlot k v).slots[j] = v) := by
  obtain rfl | hne := eq_or_ne j k
  · exact .inr ⟨rfl, s.setSlot_same j v⟩
  · exact .inl (s.setSlot_other v hne)

/-- Settles O54, by the effects: the three that replace a slot say which and with what. -/
theorem slotsHaveTheirWriters : Obligations.SlotsHaveTheirWriters := by
  intro i s t hexec j
  obtain ⟨u, r, heff, rfl⟩ := exec_next_effect hexec
  cases heff with
  | unchanged | init | tcpSend | udpSend | udpRecv => exact .inl rfl
  | create lport rport k hr hk =>
    obtain hsame | ⟨rfl, hset⟩ := s.setSlot_slot_cases k j (some ⟨lport, rport, []⟩)
    · exact .inl hsame
    · exact .inr (.inl ⟨lport, rport, rfl, (State.firstFree_eq_some.1 hk).1, hset⟩)
  | close id k c hr hk =>
    obtain hsame | ⟨rfl, hset⟩ := s.setSlot_slot_cases k j none
    · exact .inl hsame
    · obtain ⟨hid, hc⟩ := State.liveConn_eq_some.1 hk
      exact .inr (.inr (.inl ⟨id, c, rfl, hid, hc, hset⟩))
  | tcpRecv id cap k c n hr hk hn hpos =>
    obtain hsame | ⟨rfl, hset⟩ := s.setSlot_slot_cases k j (some { c with rxq := c.rxq.drop n })
    · exact .inl hsame
    · obtain ⟨hid, hc⟩ := State.liveConn_eq_some.1 hk
      exact .inr (.inr (.inr ⟨id, cap, c, n, rfl, hid, hc, hset⟩))

/-! ### How far a counter moves -/

/-- R12: a counter has moved by at most 65535, modulo 2^64. -/
def Advances (c c' : Ctr) : Prop := ∃ d ≤ 65535, c' = addCount c d

theorem Advances.refl (c : Ctr) : Advances c c := ⟨0, Nat.zero_le _, (addCount_zero c).symm⟩

theorem advances_addCount (c : Ctr) {n : Nat} (h : n ≤ 65535) : Advances c (addCount c n) := ⟨n, h, rfl⟩

/-- Every counter of a layer has moved by at most 65535. -/
def LayerCounters.Advances (c c' : LayerCounters) : Prop := List.Forall₂ Machine.Advances c.inOrder c'.inOrder

theorem LayerCounters.Advances.refl (c : LayerCounters) : c.Advances c :=
  List.forall₂_same.2 fun c _ => Machine.Advances.refl c

theorem LayerCounters.sent_advances (c : LayerCounters) {n : Nat} (h : n ≤ 65535) : c.Advances (c.sent n) :=
  .cons (advances_addCount _ (by decide)) (.cons (.refl _) (.cons (advances_addCount _ h) (.cons (.refl _) .nil)))

theorem LayerCounters.received_advances (c : LayerCounters) {n : Nat} (h : n ≤ 65535) : c.Advances (c.received n) :=
  .cons (.refl _) (.cons (advances_addCount _ (by decide)) (.cons (.refl _) (.cons (advances_addCount _ h) .nil)))

theorem Counters.forall₂_advances {c c' : Counters} (heth : c.eth.Advances c'.eth) (hip : c.ip.Advances c'.ip)
    (htcp : c.tcp.Advances c'.tcp) (hudp : c.udp.Advances c'.udp) :
    List.Forall₂ Machine.Advances c.inOrder c'.inOrder :=
  List.rel_append (List.rel_append (List.rel_append heth hip) htcp) hudp

theorem variablePart_length_le {i : Instr} (h : i.wellFormed = true) : i.variablePart.length ≤ 65535 :=
  (Nat.le_add_left _ _).trans (of_decide_eq_true h)

/-- R12: what an operation adds is 1, the length of its variable part or what a capacity admits. -/
theorem Effect.advances {s u : State} {i : Instr} (heff : Effect s i u) (hwf : i.wellFormed = true) :
    List.Forall₂ Advances s.ctr.inOrder u.ctr.inOrder := by
  have hlen := variablePart_length_le hwf
  cases heff with
  | unchanged | init | create | close => exact Counters.forall₂_advances (.refl _) (.refl _) (.refl _) (.refl _)
  | tcpSend => exact Counters.forall₂_advances (.refl _) (.refl _) (s.ctr.tcp.sent_advances hlen) (.refl _)
  | tcpRecv id cap k c n _ _ hn _ =>
    have hcap : n ≤ 65535 := by
      have := cap.isLt
      omega
    exact Counters.forall₂_advances (.refl _) (.refl _) (s.ctr.tcp.received_advances hcap) (.refl _)
  | udpSend => exact Counters.forall₂_advances (.refl _) (.refl _) (.refl _) (s.ctr.udp.sent_advances hlen)
  | udpRecv => exact Counters.forall₂_advances (.refl _) (.refl _) (.refl _) (s.ctr.udp.received_advances hlen)

theorem advances_getD {l l' : List Ctr} (h : List.Forall₂ Advances l l') (k : Nat) :
    Advances (l.getD k 0) (l'.getD k 0) := by
  induction h generalizing k with
  | nil => exact .refl 0
  | cons hc _ ih =>
    cases k with
    | zero => exact hc
    | succ k => exact ih k

/-- Settles O53: an accepted request is that of a well-formed instruction, and a rejected one adds 0. -/
theorem countersAdvanceByAtMost65535 : Obligations.CountersAdvanceByAtMost65535 := by
  intro s t req rest hs hstep k _
  have hall : List.Forall₂ Advances s.ctr.inOrder t.ctr.inOrder := by
    obtain ⟨i, hd, hexec⟩ | rfl := step_request_cases hs hstep
    · obtain ⟨u, r, heff, rfl⟩ := exec_next_effect hexec
      exact heff.advances (encodeOfDecodeIsTheRequest req i hd).2
    · exact List.forall₂_same.2 fun c _ => .refl c
  obtain ⟨d, hd, heq⟩ := advances_getD hall k
  exact ⟨d, hd, heq ▸ addCount_toNat _ d⟩

/-! ### The active count -/

/-- R30: an effect that is neither a create's nor a close's fills and empties no slot. -/
theorem Effect.active_eq {s u : State} {i : Instr} (heff : Effect s i u) (hcreate : i.op ≠ .tcpCreate)
    (hclose : i.op ≠ .tcpClose) : u.active = s.active := by
  cases heff with
  | unchanged | init | tcpSend | udpSend | udpRecv => rfl
  | create => exact absurd rfl hcreate
  | close => exact absurd rfl hclose
  | tcpRecv id cap k c n hr hk hn hpos =>
    have hc := (State.liveConn_eq_some.1 hk).2
    have hcount := s.active_setSlot k (some { c with rxq := c.rxq.drop n })
    rw [hc] at hcount
    exact Nat.add_right_cancel hcount

theorem State.active_setSlot_of_none {s : State} {k : Fin Config.tcpSlots} (h : s.slots[k] = none) (c : Conn) :
    (s.setSlot k (some c)).active = s.active + 1 := by
  simpa [h] using s.active_setSlot k (some c)

theorem State.active_setSlot_none {s : State} {k : Fin Config.tcpSlots} {c : Conn} (h : s.slots[k] = some c) :
    (s.setSlot k none).active + 1 = s.active := by
  simpa [h] using s.active_setSlot k none

theorem active_of_exec_tcpCreate {lport rport : Half} {s t : State} (h : exec (.tcpCreate lport rport) s = .next t) :
    (t.rsp = some [0x01] ∧ t.active = s.active) ∨ (t.rsp ≠ some [0x01] ∧ t.active = s.active + 1) := by
  obtain hnone | ⟨hr, k, hk⟩ := s.firstFree_cases
  · cases (exec_tcpCreate_of_no_free hnone lport rport).symm.trans h
    exact .inl ⟨rfl, rfl⟩
  · cases (exec_tcpCreate_of_free hr hk lport rport).symm.trans h
    exact .inr ⟨by simp, State.active_setSlot_of_none (State.firstFree_eq_some.1 hk).1 _⟩

theorem active_of_exec_tcpClose {id : ConnId} {s t : State} (h : exec (.tcpClose id) s = .next t) :
    (t.rsp ≠ some [0x00] ∧ t.active = s.active) ∨ (t.rsp = some [0x00] ∧ t.active + 1 = s.active) := by
  obtain hnone | ⟨hr, k, c, hk⟩ := s.liveConn_cases id
  · cases (exec_tcpClose_of_no_liveConn hnone).symm.trans h
    exact .inl ⟨by simp, rfl⟩
  · cases (exec_tcpClose_of_liveConn hr hk).symm.trans h
    exact .inr ⟨rfl, State.active_setSlot_none (State.liveConn_eq_some.1 hk).2⟩

/-- Settles O46: a create and a close by whether they find a slot, the rest by their effects. -/
theorem activeCountMovesByOne : Obligations.ActiveCountMovesByOne := by
  intro i s t hexec
  refine ⟨t.active_le, ?_⟩
  cases i with
  | tcpCreate lport rport =>
    obtain ⟨hfail, hsame⟩ | ⟨hok, hmore⟩ := active_of_exec_tcpCreate hexec
    · exact .inl ⟨hsame, .inr nofun, .inl hfail⟩
    · exact .inr (.inl ⟨rfl, hok, hmore⟩)
  | tcpClose id =>
    obtain ⟨hfail, hsame⟩ | ⟨hok, hless⟩ := active_of_exec_tcpClose hexec
    · exact .inl ⟨hsame, .inl hfail, .inr nofun⟩
    · exact .inr (.inr ⟨rfl, hok, hless⟩)
  | _ =>
    obtain ⟨u, r, heff, rfl⟩ := exec_next_effect hexec
    exact .inl ⟨heff.active_eq nofun nofun, .inr nofun, .inr nofun⟩

/-! ### The law of sends -/

/-- Settles O36: a send that fails hands back the counters as they are, and one that does not adds to the sum what it
adds to its own counter. -/
theorem sendStatisticsLaw : Obligations.SendStatisticsLaw := by
  intro id d s t h
  obtain hnone | ⟨hr, k, c, hk⟩ := s.liveConn_cases id
  · cases (exec_tcpSend_of_no_liveConn d hnone).symm.trans h
    exact .inr ⟨rfl, rfl⟩
  · cases (exec_tcpSend_of_liveConn d hr hk).symm.trans h
    refine .inl ⟨rfl, rfl, ?_⟩
    have htcp : (s.ctr.tcp.sent d.length).bytesSent = s.ctr.tcp.bytesSent + BitVec.ofNat 64 d.length := rfl
    simp only [State.respond_ctr, State.countTcpSent_ctr, htcp]
    ac_rfl

end Sys2Proof.Machine
end

section
/-! The order in which ids are handed out (44_tcp_table.md R151 and R159). -/

namespace Sys2Proof

/-- R82 and R150: the id of a slot in its four bytes. -/
theorem enc32_slot (k : Fin Config.tcpSlots) :
    enc32 (BitVec.ofNat 32 k.val) = [0x00, 0x00, 0x00, BitVec.ofNat 8 k.val] := by
  rw [← encId_eq_enc32]
  exact encId_ofNat_of_lt (k.isLt.trans (by decide))

end Sys2Proof

namespace Sys2Proof.Machine

/-- R150: a create on a free slot, its id as R8 writes it. -/
theorem exec_tcpCreate_enc32 {s : State} {k : Fin Config.tcpSlots} (hr : s.ready = true)
    (hk : s.firstFree = some k) (lport rport : Half) :
    exec (.tcpCreate lport rport) s = .next ((s.setSlot k (some ⟨lport, rport, []⟩)).respond
      (.ok (enc32 (BitVec.ofNat 32 k.val)))) := by
  rw [exec_tcpCreate_of_free hr hk, enc32_slot]

/-- R152: what a close that answered OK has done. -/
theorem eq_of_exec_tcpClose_ok {id : ConnId} {s t : State} (h : exec (.tcpClose id) s = .next t)
    (hok : t.rsp = some [0x00]) :
    ∃ k : Fin Config.tcpSlots, s.ready = true ∧ id.toNat = k.val ∧ t = (s.setSlot k none).respond (.ok []) := by
  obtain hnone | ⟨hr, k, c, hk⟩ := s.liveConn_cases id
  · cases (exec_tcpClose_of_no_liveConn hnone).symm.trans h
    simp at hok
  · cases (exec_tcpClose_of_liveConn hr hk).symm.trans h
    exact ⟨k, hr, (State.liveConn_eq_some.1 hk).1, rfl⟩

/-- R151: with slot `j` vacated the scan finds a slot no higher than `j`. -/
theorem State.exists_firstFree_setSlot_none (s : State) (j : Fin Config.tcpSlots) :
    ∃ k ≤ j, (s.setSlot j none).firstFree = some k := by
  have hj := s.setSlot_same j none
  cases hfree : (s.setSlot j none).firstFree with
  | none => exact absurd hj (State.firstFree_eq_none.1 hfree j)
  | some k =>
    have hbelow := (State.firstFree_eq_some.1 hfree).2
    exact ⟨k, not_lt.1 fun hlt => hbelow j hlt hj, rfl⟩

/-- R151: it finds `j` itself exactly when no lower slot was free. -/
theorem State.firstFree_setSlot_none_eq_iff {s : State} {j k : Fin Config.tcpSlots}
    (hfree : (s.setSlot j none).firstFree = some k) (hle : k ≤ j) :
    k = j ↔ ∀ i < j, s.slots[i] ≠ none := by
  obtain ⟨hk, hbelow⟩ := State.firstFree_eq_some.1 hfree
  constructor
  · rintro rfl i hi
    exact s.setSlot_other none hi.ne ▸ hbelow i hi
  · intro hocc
    by_contra hne
    exact hocc k (lt_of_le_of_ne hle hne) (s.setSlot_other none hne ▸ hk)

/-- Settles O40: the close leaves its slot Empty, and the create takes the first Empty slot of that table. -/
theorem closedIdIsHandedOutAgain : Obligations.ClosedIdIsHandedOutAgain := by
  intro id lport rport s t hclose hok
  obtain ⟨j, hr, hid, rfl⟩ := eq_of_exec_tcpClose_ok hclose hok
  obtain ⟨k, hle, hfree⟩ := s.exists_firstFree_setSlot_none j
  obtain ⟨hk, hbelow⟩ := State.firstFree_eq_some.1 hfree
  rw [hid]
  exact ⟨_, k, exec_tcpCreate_enc32 (s := (s.setSlot j none).respond (.ok [])) hr hfree lport rport, rfl, hk, hbelow,
    State.setSlot_same _ k _, hle, Fin.ext_iff.symm.trans (State.firstFree_setSlot_none_eq_iff hfree hle)⟩

/-- The state after creates with these ports in a row, from an empty table and with these counters (R159). -/
structure Created (ctr : Counters) (ports : List (Half × Half)) (s : State) : Prop where
  ready : s.ready = true
  ctr : s.ctr = ctr
  slots : ∀ k : Fin Config.tcpSlots, s.slots[k] = (ports[k.val]?).map (fun p => ⟨p.1, p.2, []⟩)
  rsp : 0 < ports.length → s.rsp = some (0x00 :: enc32 (BitVec.ofNat 32 (ports.length - 1)))

section
variable {ctr : Counters} {ports : List (Half × Half)} {s : State}

theorem Created.firstFree (h : Created ctr ports s) (hlt : ports.length < Config.tcpSlots) :
    s.firstFree = some ⟨ports.length, hlt⟩ := by
  refine State.firstFree_eq_some.2 ⟨?_, fun j hj => ?_⟩
  · rw [h.slots]
    simp
  · have hj' : j.val < ports.length := hj
    rw [h.slots]
    simp [hj']

/-- R159: one create more takes the next id. -/
theorem Created.create (h : Created ctr ports s) (hlt : ports.length < Config.tcpSlots) (p : Half × Half) :
    ∃ t, exec (.tcpCreate p.1 p.2) s = .next t ∧ Created ctr (ports ++ [p]) t := by
  refine ⟨_, exec_tcpCreate_enc32 h.ready (h.firstFree hlt) p.1 p.2, h.ready, h.ctr, fun j => ?_, fun _ => ?_⟩
  · obtain rfl | hne := eq_or_ne j ⟨ports.length, hlt⟩
    · refine (State.setSlot_same ..).trans ?_
      simp
    · refine ((State.setSlot_other _ _ hne).trans (h.slots j)).trans ?_
      have hval : j.val ≠ ports.length := fun hj => hne (Fin.ext hj)
      rw [List.getElem?_append]
      split
      · rfl
      · rw [List.getElem?_eq_none (by omega), List.getElem?_eq_none (by simp; omega)]
  · simp

theorem Created.of_withInputs (h : Created ctr ports s) (rest : List HostInput) :
    Created ctr ports (s.withInputs rest) :=
  ⟨h.ready, h.ctr, h.slots, h.rsp⟩

end

theorem step_of_create {s : State} {lport rport : Half} {rest : List HostInput}
    (hs : s.inputs = .request (encode (.tcpCreate lport rport)) :: rest) :
    step s = exec (.tcpCreate lport rport) (s.withInputs rest) :=
  step_of_decode hs (decodeOfEncodeIsTheInstruction (.tcpCreate lport rport) rfl)

/-- R159: a row of creates, by induction on the requests still to come. -/
theorem run_creates {ctr : Counters} (todo : List (Half × Half)) (rest : List HostInput) :
    ∀ (done : List (Half × Half)) (s : State), Created ctr done s → done.length + todo.length ≤ 64 →
      s.inputs = todo.map (fun p => .request (encode (.tcpCreate p.1 p.2))) ++ rest →
      ∃ t, Host.Core.run Sys2Proof.core todo.length s = .next t ∧ Created ctr (done ++ todo) t ∧ t.inputs = rest := by
  induction todo with
  | nil => exact fun done s h _ hs => ⟨s, rfl, by rwa [List.append_nil], hs⟩
  | cons p todo ih =>
    intro done s h hlen hs
    rw [List.length_cons] at hlen
    obtain ⟨t, hexec, ht⟩ := (h.of_withInputs _).create (by simp; omega) p
    have hstep := (step_of_create hs).trans hexec
    obtain ⟨u, hrun, hu, hrest⟩ := ih (done ++ [p]) t ht (by simp; omega) (by rw [step_inputs hstep, hs]; rfl)
    exact ⟨u, (core_run_next _ hstep).trans hrun, by rwa [List.append_assoc] at hu, hrest⟩

/-- Settles O39: an empty table holds the ports of no create. -/
theorem createsFillTheTableInOrder : Obligations.CreatesFillTheTableInOrder := by
  refine ⟨fun ports rest s hr hempty hlen hs => ?_, fun lport rport s _ hfull => ?_⟩
  · have hnone : Created s.ctr [] s := ⟨hr, rfl, hempty, fun h => absurd h (Nat.lt_irrefl 0)⟩
    obtain ⟨t, hrun, ht, hrest⟩ := run_creates ports rest [] s hnone (by simpa using hlen) hs
    exact ⟨t, hrun, ht.slots, ht.ready, ht.ctr, hrest, ht.rsp⟩
  · exact exec_tcpCreate_of_no_free (fun _ => State.firstFree_eq_none.2 hfull) lport rport

end Sys2Proof.Machine
end

section
/-! No operation reads or writes what the host holds: the two addresses and the inputs (10_state.md R23). -/

namespace Sys2Proof.Machine

/-- The state with other construction arguments and other inputs to come. -/
def State.rehost (s : State) (mac : Mac) (ip : Ipa) (l : List HostInput) : State :=
  { s with localMac := mac, localIp := ip, inputs := l }

/-- R23: every operation does the same whatever the addresses and the inputs are: what it looks up in the state
(`ready`, the table, the counters) is the same before and after `rehost`. -/
theorem exec_rehost (i : Instr) (s : State) (mac : Mac) (ip : Ipa) (l : List HostInput) :
    ∃ t, exec i s = .next t ∧ exec i (s.rehost mac ip l) = .next (t.rehost mac ip l) := by
  by_cases hpure : i.op.isPure = true
  · obtain ⟨r, hr⟩ := exec_eq_answer_of_isPure hpure
    exact ⟨_, hr s, hr (s.rehost mac ip l)⟩
  cases i with
  | mgrInit => exact ⟨_, exec_mgrInit s, exec_mgrInit _⟩
  | mgrProcessEvents => exact ⟨_, exec_mgrProcessEvents s, exec_mgrProcessEvents _⟩
  | mgrGetStats =>
    cases hr : s.ready with
    | true => exact ⟨_, exec_mgrGetStats_of_ready hr, exec_mgrGetStats_of_ready (s := s.rehost mac ip l) hr⟩
    | false => exact ⟨_, exec_mgrGetStats_of_unready hr, exec_mgrGetStats_of_unready (s := s.rehost mac ip l) hr⟩
  | udpSend bytes =>
    cases hr : s.ready with
    | true => exact ⟨_, exec_udpSend_of_ready hr bytes, exec_udpSend_of_ready (s := s.rehost mac ip l) hr bytes⟩
    | false => exact ⟨_, exec_udpSend_of_unready hr bytes, exec_udpSend_of_unready (s := s.rehost mac ip l) hr bytes⟩
  | udpRecv bytes =>
    cases hr : s.ready with
    | true => exact ⟨_, exec_udpRecv_of_ready hr bytes, exec_udpRecv_of_ready (s := s.rehost mac ip l) hr bytes⟩
    | false => exact ⟨_, exec_udpRecv_of_unready hr bytes, exec_udpRecv_of_unready (s := s.rehost mac ip l) hr bytes⟩
  | tcpCreate lport rport =>
    obtain hnone | ⟨hr, k, hk⟩ := s.firstFree_cases
    · exact ⟨_, exec_tcpCreate_of_no_free hnone lport rport,
        exec_tcpCreate_of_no_free (s := s.rehost mac ip l) hnone lport rport⟩
    · exact ⟨_, exec_tcpCreate_of_free hr hk lport rport,
        exec_tcpCreate_of_free (s := s.rehost mac ip l) hr hk lport rport⟩
  | tcpClose id =>
    obtain hnone | ⟨hr, k, c, hk⟩ := s.liveConn_cases id
    · exact ⟨_, exec_tcpClose_of_no_liveConn hnone, exec_tcpClose_of_no_liveConn (s := s.rehost mac ip l) hnone⟩
    · exact ⟨_, exec_tcpClose_of_liveConn hr hk, exec_tcpClose_of_liveConn (s := s.rehost mac ip l) hr hk⟩
  | tcpSend id d =>
    obtain hnone | ⟨hr, k, c, hk⟩ := s.liveConn_cases id
    · exact ⟨_, exec_tcpSend_of_no_liveConn d hnone, exec_tcpSend_of_no_liveConn d hnone⟩
    · exact ⟨_, exec_tcpSend_of_liveConn d hr hk, exec_tcpSend_of_liveConn d hr hk⟩
  | tcpRecv id cap =>
    obtain hnone | ⟨k, c, hr, hk, hpos⟩ := s.queued_cases id cap
    · exact ⟨_, exec_tcpRecv_of_nothing_queued hnone, exec_tcpRecv_of_nothing_queued (s := s.rehost mac ip l) hnone⟩
    · exact ⟨_, exec_tcpRecv_of_queued hr hk hpos, exec_tcpRecv_of_queued (s := s.rehost mac ip l) hr hk hpos⟩
  | _ => exact absurd rfl hpure

theorem Effect.localMac_eq {s u : State} {i : Instr} (h : Effect s i u) : u.localMac = s.localMac := by
  cases h <;> rfl

theorem Effect.localIp_eq {s u : State} {i : Instr} (h : Effect s i u) : u.localIp = s.localIp := by
  cases h <;> rfl

/-- Settles O55: no effect writes the three, and none depends on them. -/
theorem localAddressesAreNeitherReadNorWritten : Obligations.LocalAddressesAreNeitherReadNorWritten := by
  intro i s mac ip l
  obtain ⟨t, ht, hrehost⟩ := exec_rehost i s mac ip l
  obtain ⟨u, r, heff, rfl⟩ := exec_next_effect ht
  exact ⟨_, ht, heff.localMac_eq, heff.localIp_eq, heff.inputs_eq, hrehost⟩

end Sys2Proof.Machine
end

section
/-! The lengths of the responses (30_encoding.md R91, 20_memory.md R56). -/

namespace Sys2Proof.Machine

/-- An operation that answered OK with these fields answers no other response. -/
theorem eq_ok_of_exec {i : Instr} {s t u : State} {f : Bytes} {r : Response} (h : exec i s = .next t)
    (hrsp : t.rsp = some (0x00 :: f)) (hu : exec i s = .next (u.respond r)) : r = .ok f := by
  cases hu.symm.trans h
  have hbytes : r.bytes = 0x00 :: f := Option.some.inj hrsp
  cases r with
  | ok g => exact congrArg _ (List.cons.inj hbytes).2
  | fail | badRequest => simp at hbytes

/-- A decoder that rejects the lengths below `lo` and above `hi` accepts a length between them. -/
theorem length_bounds_of_eq_some {α : Type} {dec : Bytes → Option α} {lo hi : Nat}
    (hshort : ∀ {b}, b.length < lo → dec b = none) (hlong : ∀ {b}, hi < b.length → dec b = none) {b : Bytes} {a : α}
    (h : dec b = some a) : lo ≤ b.length ∧ b.length ≤ hi :=
  ⟨not_lt.1 fun hlt => Option.some_ne_none a (h.symm.trans (hshort hlt)),
    not_lt.1 fun hgt => Option.some_ne_none a (h.symm.trans (hlong hgt))⟩

theorem ethDecode_payload_length {b : Bytes} {f : EthFrame} (h : ethDecode b = some f) : f.payload.length ≤ 1500 := by
  obtain ⟨hlo, hhi⟩ := length_bounds_of_eq_some ethDecode_of_lt ethDecode_of_gt h
  cases (ethDecode_of_le hlo hhi).symm.trans h
  rw [List.length_drop]
  omega

theorem ipDecode_payload_length {b : Bytes} {p : IpPacket} (h : ipDecode b = some p) : p.payload.length ≤ 1480 := by
  obtain ⟨hlo, hhi⟩ := length_bounds_of_eq_some ipDecode_of_lt ipDecode_of_gt h
  cases (ipDecode_of_le hlo hhi).symm.trans h
  rw [List.length_drop]
  omega

theorem udpDecode_payload_length {b : Bytes} {d : UdpDatagram} (h : udpDecode b = some d) :
    d.payload.length ≤ 1472 := by
  obtain ⟨hlo, hhi⟩ := length_bounds_of_eq_some udpDecode_of_lt udpDecode_of_gt h
  cases (udpDecode_of_le hlo hhi).symm.trans h
  rw [List.length_drop]
  omega

/-- R156 and R91: the count in front of the bytes received is their number. -/
theorem received_fields_length (q : Bytes) (cap : Half) :
    let f := enc16 (BitVec.ofNat 16 (min q.length cap.toNat)) ++ q.take (min q.length cap.toNat)
    f.length + 1 = 3 + (be16 f 0).toNat := by
  have hcap := cap.isLt
  have hn : min q.length cap.toNat < 2 ^ 16 := by omega
  simp only [be16_enc16, BitVec.toNat_ofNat, Nat.mod_eq_of_lt hn, List.length_append, enc16_length, List.length_take]
  omega

/-- Settles O57, one operation at a time, by the responses it has. -/
theorem okResponsesHaveTheirLength : Obligations.OkResponsesHaveTheirLength := by
  intro i s t f h hrsp
  have eq_ok {u : State} {r : Response} (hu : exec i s = .next (u.respond r)) : r = .ok f := eq_ok_of_exec h hrsp hu
  cases i with
  | mgrInit => cases eq_ok (exec_mgrInit s); rfl
  | mgrProcessEvents => cases eq_ok (exec_mgrProcessEvents s); rfl
  | mgrGetStats =>
    cases hr : s.ready with
    | true => cases eq_ok (exec_mgrGetStats_of_ready hr); exact congrArg (· + 1) (snapshot_length s)
    | false => cases eq_ok (exec_mgrGetStats_of_unready hr); exact congrArg (· + 1) List.length_replicate
  | macEq | macIsBcast | macIsNull | ipaEq | ipaIsBcast | ipaIsNull | ethAccept => cases eq_ok (u := s) rfl; rfl
  | ethEnc dst src w p =>
    cases eq_ok (u := s) (r := .ok _) (exec_ethEnc dst src w p s)
    have hlen := ethEncode_length ⟨dst, src, .ofWire w, p⟩
    constructor <;> omega
  | ipEnc src dst proto p =>
    cases eq_ok (u := s) (r := .ok _) (exec_ipEnc src dst proto p s)
    have hlen := ipEncode_length ⟨src, dst, proto, p⟩
    constructor <;> omega
  | udpEnc sport dport length checksum p =>
    cases eq_ok (u := s) (r := .ok _) (exec_udpEnc sport dport length checksum p s)
    have hlen := udpEncode_length ⟨sport, dport, length, checksum, p⟩
    constructor <;> omega
  | ethDec bytes =>
    cases hd : ethDecode bytes with
    | none => cases eq_ok (u := s) (r := .fail) (exec_ethDec_of_none hd s)
    | some g =>
      cases eq_ok (u := s) (r := .ok _) (exec_ethDec_of_some hd s)
      have hpayload := ethDecode_payload_length hd
      simp only [Instr.op, List.length_append, Mac.bytes_length, enc16_length]
      omega
  | ipDec bytes =>
    cases hd : ipDecode bytes with
    | none => cases eq_ok (u := s) (r := .fail) (exec_ipDec_of_none hd s)
    | some g =>
      cases eq_ok (u := s) (r := .ok _) (exec_ipDec_of_some hd s)
      have hpayload := ipDecode_payload_length hd
      simp only [Instr.op, List.length_append, Ipa.bytes_length, List.length_singleton, enc16_length]
      omega
  | udpDec bytes =>
    cases hd : udpDecode bytes with
    | none => cases eq_ok (u := s) (r := .fail) (exec_udpDec_of_none hd s)
    | some g =>
      cases eq_ok (u := s) (r := .ok _) (exec_udpDec_of_some hd s)
      have hpayload := udpDecode_payload_length hd
      simp only [Instr.op, List.length_append, enc16_length]
      omega
  | ipDispatch proto =>
    by_cases hp : proto = 1 ∨ proto = 6 ∨ proto = 17
    · cases eq_ok (u := s) (r := .ok _) (exec_ipDispatch_of_recognised hp s); rfl
    · cases eq_ok (u := s) (r := .fail) (exec_ipDispatch_of_none (ipDispatch_of_unrecognised hp) s)
  | udpSend bytes =>
    cases hr : s.ready with
    | true => cases eq_ok (exec_udpSend_of_ready hr bytes); rfl
    | false => cases eq_ok (exec_udpSend_of_unready hr bytes)
  | udpRecv bytes =>
    cases hr : s.ready with
    | true => cases eq_ok (exec_udpRecv_of_ready hr bytes); rfl
    | false => cases eq_ok (exec_udpRecv_of_unready hr bytes)
  | tcpCreate lport rport =>
    obtain hnone | ⟨hr, k, hk⟩ := s.firstFree_cases
    · cases eq_ok (exec_tcpCreate_of_no_free hnone lport rport)
    · cases eq_ok (exec_tcpCreate_of_free hr hk lport rport); rfl
  | tcpClose id =>
    obtain hnone | ⟨hr, k, c, hk⟩ := s.liveConn_cases id
    · cases eq_ok (exec_tcpClose_of_no_liveConn hnone)
    · cases eq_ok (exec_tcpClose_of_liveConn hr hk); rfl
  | tcpSend id d =>
    obtain hnone | ⟨hr, k, c, hk⟩ := s.liveConn_cases id
    · cases eq_ok (exec_tcpSend_of_no_liveConn d hnone)
    · cases eq_ok (exec_tcpSend_of_liveConn d hr hk); rfl
  | tcpRecv id cap =>
    obtain hnone | ⟨k, c, hr, hk, hpos⟩ := s.queued_cases id cap
    · cases eq_ok (exec_tcpRecv_of_nothing_queued hnone); rfl
    · cases eq_ok (exec_tcpRecv_of_queued hr hk hpos); exact received_fields_length c.rxq cap

/-- R91 and R157: under the invariant the fields of an OK response are at most 1516 bytes. -/
theorem ReachInv.ok_length_le {s t : State} {i : Instr} {f : Bytes} (hinv : ReachInv s) (h : exec i s = .next t)
    (hrsp : t.rsp = some (0x00 :: f)) : f.length ≤ 1516 := by
  have hlen := okResponsesHaveTheirLength i s t f h hrsp
  cases i with
  | tcpRecv id cap =>
    cases eq_ok_of_exec h hrsp (hinv.exec_tcpRecv id cap)
    decide
  | _ =>
    dsimp only [Instr.op] at hlen
    omega

/-- Settles O58: FAIL and BAD_REQUEST are one byte, and an OK response is bounded by its operation. -/
theorem responsesFitTheResponseBuffer : Obligations.ResponsesFitTheResponseBuffer := by
  intro s t req r rest hinv hs hstep hrsp
  obtain ⟨i, -, hexec⟩ | rfl := step_request_cases hs hstep
  · have hrest : ReachInv (s.withInputs rest) := hinv.of_samePersistent ⟨rfl, rfl, rfl, rfl, rfl⟩
    obtain ⟨u, q, -, hu, ⟨rfl, -⟩ | ⟨f, rfl⟩⟩ := exec_effect i (s.withInputs rest)
    · cases hu.symm.trans hexec
      cases hrsp
      decide
    · cases hu.symm.trans hexec
      cases hrsp
      have hlen := hrest.ok_length_le hexec rfl
      rw [Response.bytes_ok, List.length_cons]
      omega
  · cases hrsp
    decide

end Sys2Proof.Machine
end
